-- ==== Sys2Proof/Word.lean ====
section
/-! DEFINITION. The words of the floating-point narrower (spec/30_encoding.md R56, R57) and the five
classes of a word (R58). A word of n bits is an unsigned integer, bit 0 the least significant
(spec/00_scope.md R14), which is what `BitVec n` is. -/

namespace Sys2Proof

/-- One bit: the sign field, a round or sticky bit. -/
abbrev Bit := BitVec 1

/-- A source word, binary128: what the port `src` carries (R24, R56). -/
abbrev Quad := BitVec 128

/-- A destination word, binary64: what the port `dst` carries (R24, R57). -/
abbrev Double := BitVec 64

/-- The exponent field of a source word, bits 126:112 (R56). -/
abbrev SrcExp := BitVec 15

/-- The mantissa field of a source word, bits 111:0, without the implicit bit (R56, R8). -/
abbrev SrcMant := BitVec 112

/-- The exponent field of a destination word, bits 62:52 (R57). -/
abbrev DstExp := BitVec 11

/-- The mantissa field of a destination word, bits 51:0, without the implicit bit (R57, R8). -/
abbrev DstMant := BitVec 52

/-- The mantissa field of a finite source value with its implicit bit above it (R104, `SRC_PREC` bits). -/
abbrev Significand := BitVec 113

/-- A byte of a host's array of bytes; the block itself has no bytes (R42). -/
abbrev Byte := BitVec 8

/-- The class of a word (R27, R58). How it is coded on wires is not observable (D7). -/
inductive FpClass where
  | zero
  | subnormal
  | normal
  | infinity
  | nan
  deriving DecidableEq, Repr

/-- In which order a host keeps the bytes of a word in its memory (R43). -/
inductive ByteOrder where
  | little
  | big
  deriving DecidableEq, Repr, Inhabited

end Sys2Proof
end

