-- ==== Sys2Proof/Config.lean ====
section
/-! DEFINITION. What is fixed for this hardware and is not state (spec/10_state.md R23): the two Format
Descriptors (spec/00_scope.md R6, R7), the constants derived from them (R8, R9), the flush limit (R11)
and the parameters the spec names and leaves open (R12). -/

namespace Sys2Proof.Config

/-- The document's Format Descriptor: an immutable record (R6, R7, R23). `mantissaBits` is the stored
field, without the implicit bit (R8, conflict C1). -/
structure FormatDescriptor where
  totalBits : Nat
  mantissaBits : Nat
  exponentBits : Nat
  exponentBias : Nat
  deriving DecidableEq, Repr

/-- `SRC`: quad precision, binary128 (R6, R3). -/
def srcFormat : FormatDescriptor :=
  { totalBits := 128, mantissaBits := 112, exponentBits := 15, exponentBias := 16383 }

/-- `DST`: double precision, binary64 (R7, R3). -/
def dstFormat : FormatDescriptor :=
  { totalBits := 64, mantissaBits := 52, exponentBits := 11, exponentBias := 1023 }

/-- The precision: stored mantissa bits and the implicit bit (R8). -/
def FormatDescriptor.precision (f : FormatDescriptor) : Nat := f.mantissaBits + 1

/-- The all-ones exponent code of a format (R9). -/
def FormatDescriptor.expOnes (f : FormatDescriptor) : Nat := 2 ^ f.exponentBits - 1

/-- `SRC_BIAS` (R6). -/
def srcBias : Nat := srcFormat.exponentBias
/-- `DST_BIAS` (R7). -/
def dstBias : Nat := dstFormat.exponentBias
/-- `SRC_SIG_BITS` (R6). -/
def srcSigBits : Nat := srcFormat.mantissaBits
/-- `DST_SIG_BITS` (R7). -/
def dstSigBits : Nat := dstFormat.mantissaBits
/-- `SRC_PREC` = 113 (R8). -/
def srcPrec : Nat := srcFormat.precision
/-- `DST_PREC` = 53 (R8). -/
def dstPrec : Nat := dstFormat.precision
/-- `SRC_EXP_ONES` = 0x7FFF (R9). -/
def srcExpOnes : Nat := srcFormat.expOnes
/-- `DST_EXP_ONES` = 0x7FF (R9). -/
def dstExpOnes : Nat := dstFormat.expOnes
/-- `DST_EXP_MAXFINITE` = 0x7FE (R9). -/
def dstExpMaxFinite : Nat := dstExpOnes - 1
/-- `TRUNC_SHIFT` = 60 (R9). -/
def truncShift : Nat := srcSigBits - dstSigBits
/-- `EXP_DELTA` = 15360 (R9). -/
def expDelta : Nat := srcBias - dstBias
/-- `DST_INF` = 0x7FF0000000000000 (R9). -/
def dstInf : Double := BitVec.ofNat 64 (dstExpOnes <<< dstSigBits)
/-- `DST_QUIET`, the top mantissa bit of a destination word (R9), as a mantissa field (R139). -/
def dstQuiet : DstMant := BitVec.ofNat 52 (1 <<< (dstSigBits - 1))
/-- `DST_SIGN` = 0x8000000000000000 (R9). -/
def dstSign : Double := BitVec.ofNat 64 (1 <<< (dstFormat.totalBits - 1))
/-- `DST_SIG_MASK` (R9). -/
def dstSigMask : Nat := 2 ^ dstSigBits - 1
/-- `SRC_SIG_MASK` (R9). -/
def srcSigMask : Nat := 2 ^ srcSigBits - 1
/-- `SRC_IMPLICIT` (R9). -/
def srcImplicit : Nat := 1 <<< srcSigBits
/-- `DST_EMAX`, the largest unbiased exponent of a finite destination value, 1023 (R9). -/
def dstEmax : Int := (dstExpMaxFinite : Int) - dstBias
/-- `DST_EMIN`, the normal floor, -1022 (R9). -/
def dstEmin : Int := 1 - (dstBias : Int)
/-- `DST_SUBFLOOR`, the subnormal floor, -1074 (R9). -/
def dstSubfloor : Int := dstEmin - dstSigBits

/-- `FLUSH_LIMIT` = `DST_PREC` = 53: the largest extra right shift that is still shifted and rounded
(R11, conflict C3, decision D6; log 7). The functions that read it take it as an argument. -/
def flushLimit : Nat := dstPrec

/-- `E_OVF` = 0x43FF: the smallest source exponent code that overflows before rounding (R9). -/
def eOvf : Nat := dstExpOnes + expDelta
/-- `E_UNDER` = 0x3C00: the largest source exponent code with destExponent <= 0 (R9). -/
def eUnder : Nat := expDelta
/-- `E_FLUSH` = 0x3BCB: the largest source exponent code of a Normal value that is flushed (R9). -/
def eFlush : Nat := expDelta - flushLimit

/-- `PIPE_DEPTH`: 0 for this hardware; no rule reads it (R190, D2; log 9). -/
def pipeDepth : Nat := 0

/-- `HOST_BYTE_ORDER`: OPEN, a parameter of a test harness that reads operands from bytes; no rule of
the block reads it (R43, D3; log 6). It has no body: nothing can be proved of its value. -/
opaque hostByteOrder : ByteOrder

end Sys2Proof.Config
end

