-- ==== Sys2Proof/Machine/State.lean ====
section
/-! DEFINITION. The state: the two ports of the block and nothing else (spec/10_state.md R24, R33).
The block is stateless (R20 to R32): `src` is what the host drives, and `dst` is what the block drives,
`NARROW(src)` at all times (R33). That is the invariant `Settled` of plain data, which reset has and which
presenting an operand and every step keep (DESIGN CHOICE: log 3). No fault and no refusal exists
(spec/60_exceptions.md R170, R171). -/

namespace Sys2Proof.Machine

/-- The values on the block's two ports (R24). -/
structure State where
  /-- The input port: the operand the host presents (R24, R56). -/
  src : Quad
  /-- The output port: the result of the operand on `src`, at all times (R24, R30, R33, R57). -/
  dst : Double
  deriving DecidableEq, Repr

/-- The port values with nothing yet presented. The block gives `src` no value (R33): 0 is the model's
choice (DESIGN CHOICE, unsafe: log 1). `dst` is `NARROW(src)` (R33, R186), which for that operand is 0
(DEDUCED: log 2). -/
def State.reset : State := { src := 0, dst := 0 }

/-- The reasons to stop with a fault: none, the set of exception causes is empty (R170). -/
inductive Fault where
  deriving DecidableEq, Repr

/-- The reasons to refuse. Nothing refuses (R63, R171). -/
inductive Refusal where
  /-- An arm of `exec` whose instruction has no meaning yet would raise it; safe. No arm does. -/
  | notModelled (mnemonic : String)
  deriving DecidableEq, Repr

end Sys2Proof.Machine
end

