-- ==== Sys2Proof/Machine/Ops.lean ====
section
/-! DEFINITION. The named operations: the bit primitives of spec/00_scope.md R14, R16 and the block's
use of its output port (the host's use of the input port, State.present, needs the operation and stands in
Narrow.lean). There is no register file, no memory access and no exception entry or return to define here:
the block has none (spec/10_state.md R20, spec/20_memory.md R41, spec/60_exceptions.md R175, R176). -/

namespace Sys2Proof.Machine

/-- `OR(x)`: 1 when x is not 0, else 0 (R14). -/
def orReduce {n : Nat} (x : BitVec n) : Bit := BitVec.ofBool (x != 0)

/-- `x[i]`; an index beyond the word reads 0 (R14, R125). -/
def bitAt {n : Nat} (x : BitVec n) (i : Nat) : Bit := BitVec.ofBool (x.getLsbD i)

/-- The bits below bit n of a word, as R80 writes them: `x & (2^n - 1)`. -/
def lowBits {w : Nat} (x : BitVec w) (n : Nat) : BitVec w := x &&& BitVec.ofNat w (2 ^ n - 1)

/-- `dst <- v`: all 64 bits of the output port are driven (R16, R143). -/
def State.driveDst (s : State) (v : Double) : State := { s with dst := v }

/-- The end of an evaluation: the one outcome a step has (R171), `dst` driven and `src` left to the
host (R184). -/
def complete (v : Double) (s : State) : Host.Outcome State Fault Refusal := .next (s.driveDst v)

end Sys2Proof.Machine
end

