-- ==== Sys2Proof/Machine/Flags.lean ====
section
/-! DEFINITION. The engine's signals to the packer: `overflowPre`, `under`, `flush`, `overflowPost`. They
are NOT flags: the block has no flag, condition code or status output (spec/10_state.md R22,
spec/42_exponent_rebias_detector.md R113, decision D8). They are wires inside one evaluation. -/

namespace Sys2Proof.Machine

/-- `overflowPre`: the rebiased exponent is past the finite codes before rounding; the comparison is
against 2047, not 2046 (R103, conflict C2, decision D5; log 8). -/
def overflowPre (destExponent : Int) : Bool := decide ((Config.dstExpOnes : Int) ≤ destExponent)

/-- `under`: the value must be denormalised in the destination format (R105). -/
def under (destExponent : Int) : Bool := decide (destExponent ≤ 0)

/-- `flush`: the extra shift exceeds the flush limit (R106). The limit is an argument, so that the model
can also be run at the other reading, 52 (R11, conflict C3; log 7). -/
def flush (limit : Nat) (isUnder : Bool) (k : Nat) : Bool := isUnder && decide (limit < k)

/-- `overflowPost`: the rounding carry pushed the exponent past the finite codes (R110). -/
def overflowPost (expField1 : BitVec 12) : Bool := decide (Config.dstExpOnes ≤ expField1.toNat)

end Sys2Proof.Machine
end

