-- ==== Sys2Proof/Syntax.lean ====
section
/-! DEFINITION. The instructions: one constructor per row of spec/opcode_table.json (spec/30_encoding.md
R62, R66). The block has one operation and no instruction word (R55); an instruction here is an
evaluation with its operand, either whole (`narrow`, row `NARROW`) or as the path row that the operand
selects, with the fields that row leaves free. -/

namespace Sys2Proof

/-- The paths and sub-paths of R62, one for each path row of the table (`NARROW` is not a path, R66). -/
inductive Path where
  | zero
  | inf
  | nan
  | subnSrc
  | ovf
  | norm
  | sub
  | flush
  deriving DecidableEq, Repr

/-- One evaluation, as a row of the table names it. A field that a row fixes (E and M of a zero, M of
an infinity, E of a NaN and of a source subnormal) is no argument of its constructor. -/
inductive Instr where
  /-- `NARROW` (R80): the one operation on the operand presented. -/
  | narrow (src : Quad)
  /-- `NARROW.ZERO`: E = 0, M = 0 (R137). -/
  | narrowZero (sign : Bit)
  /-- `NARROW.INF`: E = 0x7FFF, M = 0 (R138). -/
  | narrowInf (sign : Bit)
  /-- `NARROW.NAN`: E = 0x7FFF, M != 0 (R139). -/
  | narrowNan (sign : Bit) (m : SrcMant)
  /-- `NARROW.SUBN_SRC`: E = 0, M != 0, always flushed (R111, R141). -/
  | narrowSubnSrc (sign : Bit) (m : SrcMant)
  /-- `NARROW.OVF`: 0x43FF <= E <= 0x7FFE, overflow before rounding (R140). -/
  | narrowOvf (sign : Bit) (e : SrcExp) (m : SrcMant)
  /-- `NARROW.NORM`: 0x3C01 <= E <= 0x43FE, a normal result or overflow by the carry (R142, R140). -/
  | narrowNorm (sign : Bit) (e : SrcExp) (m : SrcMant)
  /-- `NARROW.SUB`: 0x3BCC <= E <= 0x3C00, a subnormal result, may carry or round to zero (R142). -/
  | narrowSub (sign : Bit) (e : SrcExp) (m : SrcMant)
  /-- `NARROW.FLUSH`: 1 <= E <= 0x3BCB, flush to signed zero (R141). -/
  | narrowFlush (sign : Bit) (e : SrcExp) (m : SrcMant)
  deriving DecidableEq, Repr

/-- The path an instruction is the row of; the row `NARROW` is not a path (R66). -/
def Instr.path? : Instr → Option Path
  | .narrow _ => none
  | .narrowZero _ => some .zero
  | .narrowInf _ => some .inf
  | .narrowNan _ _ => some .nan
  | .narrowSubnSrc _ _ => some .subnSrc
  | .narrowOvf _ _ _ => some .ovf
  | .narrowNorm _ _ _ => some .norm
  | .narrowSub _ _ _ => some .sub
  | .narrowFlush _ _ _ => some .flush

end Sys2Proof
end

