-- ==== Sys2Proof/WellFormed.lean ====
section
/-! DEFINITION. Which instructions the encoding has: each row's constraint on E and M
(spec/30_encoding.md R62, spec/opcode_table.json). Every operand is legal (R63), so `narrow` has no
constraint; a path row has the one that selects it. -/

namespace Sys2Proof

/-- The constraint of an instruction's row. -/
def Instr.wellFormed : Instr → Bool
  | .narrow _ => true
  | .narrowZero _ => true
  | .narrowInf _ => true
  | .narrowNan _ m => m != 0
  | .narrowSubnSrc _ m => m != 0
  | .narrowOvf _ e _ => decide (Config.eOvf ≤ e.toNat ∧ e.toNat < Config.srcExpOnes)
  | .narrowNorm _ e _ => decide (Config.eUnder < e.toNat ∧ e.toNat < Config.eOvf)
  | .narrowSub _ e _ => decide (Config.eFlush < e.toNat ∧ e.toNat ≤ Config.eUnder)
  | .narrowFlush _ e _ => decide (1 ≤ e.toNat ∧ e.toNat ≤ Config.eFlush)

end Sys2Proof
end

