-- ==== Sys2Proof/Decode.lean ====
section
/-! DEFINITION. From an operand word to the instruction it selects, and back (spec/30_encoding.md R56,
R62, R66). What a decoder decodes here is the operand: there is no opcode (R55). Decoding a 128-bit
word never refuses (R63); decoding a host's bytes refuses by name only an operand that is not whole
(R44; DESIGN CHOICE: log 14). -/

namespace Sys2Proof

/-! ## The fields of a source word (R56, R90 to R92) -/

/-- `sign = src[127]` (R90). -/
def srcSign (src : Quad) : Bit := src.extractLsb' 127 1

/-- `E = src[126:112]`, the stored code, no bias removed (R91). -/
def srcExponent (src : Quad) : SrcExp := src.extractLsb' 112 15

/-- `M = src[111:0]`, without the implicit bit (R92). -/
def srcMantissa (src : Quad) : SrcMant := src.extractLsb' 0 112

/-- `src = {sign, E, M}` (R56). -/
def srcWord (sign : Bit) (e : SrcExp) (m : SrcMant) : Quad := sign ++ e ++ m

/-! ## Decode and encode one word -/

/-- The path instruction an operand selects: the table of R62, read off E and M. -/
def decodeOperand (src : Quad) : Instr :=
  let sign := srcSign src
  let e := srcExponent src
  let m := srcMantissa src
  if e.toNat = 0 then
    if m = 0 then .narrowZero sign else .narrowSubnSrc sign m
  else if e.toNat = Config.srcExpOnes then
    if m = 0 then .narrowInf sign else .narrowNan sign m
  else if Config.eOvf ≤ e.toNat then .narrowOvf sign e m
  else if Config.eUnder < e.toNat then .narrowNorm sign e m
  else if Config.eFlush < e.toNat then .narrowSub sign e m
  else .narrowFlush sign e m

/-- The all-ones exponent field, 0x7FFF. -/
def srcExpOnesField : SrcExp := BitVec.ofNat 15 Config.srcExpOnes

/-- The operand word of an instruction, `{sign, E, M}` with the fields its row fixes (R56, R62). -/
def encode : Instr → Quad
  | .narrow src => src
  | .narrowZero sign => srcWord sign 0 0
  | .narrowInf sign => srcWord sign srcExpOnesField 0
  | .narrowNan sign m => srcWord sign srcExpOnesField m
  | .narrowSubnSrc sign m => srcWord sign 0 m
  | .narrowOvf sign e m => srcWord sign e m
  | .narrowNorm sign e m => srcWord sign e m
  | .narrowSub sign e m => srcWord sign e m
  | .narrowFlush sign e m => srcWord sign e m

/-! ## The opcode table as data (R66) -/

/-- A row's condition on the mantissa field. -/
inductive MantissaTest where
  | any
  | isZero
  | nonZero
  deriving DecidableEq, Repr

/-- Whether a mantissa field meets a row's condition. -/
def MantissaTest.holds : MantissaTest → SrcMant → Bool
  | .any, _ => true
  | .isZero, m => m == 0
  | .nonZero, m => m != 0

/-- A path row of spec/opcode_table.json: mask and match over the operand, and the constraint, which is
a range of E and a condition on M. -/
structure PathRow where
  path : Path
  mask : Quad
  bits : Quad
  eLow : Nat
  eHigh : Nat
  mantissa : MantissaTest
  deriving DecidableEq, Repr

/-- The eight path rows, in the table's order, every number as the table writes it. -/
def pathRows : List PathRow :=
  [ { path := .zero, mask := 0x7FFFFFFFFFFFFFFFFFFFFFFFFFFFFFFF#128, bits := 0#128,
      eLow := 0, eHigh := 0, mantissa := .isZero },
    { path := .inf, mask := 0x7FFFFFFFFFFFFFFFFFFFFFFFFFFFFFFF#128,
      bits := 0x7FFF0000000000000000000000000000#128,
      eLow := 0x7FFF, eHigh := 0x7FFF, mantissa := .isZero },
    { path := .nan, mask := 0x7FFF0000000000000000000000000000#128,
      bits := 0x7FFF0000000000000000000000000000#128,
      eLow := 0x7FFF, eHigh := 0x7FFF, mantissa := .nonZero },
    { path := .subnSrc, mask := 0x7FFF0000000000000000000000000000#128, bits := 0#128,
      eLow := 0, eHigh := 0, mantissa := .nonZero },
    { path := .ovf, mask := 0#128, bits := 0#128, eLow := 0x43FF, eHigh := 0x7FFE, mantissa := .any },
    { path := .norm, mask := 0#128, bits := 0#128, eLow := 0x3C01, eHigh := 0x43FE, mantissa := .any },
    { path := .sub, mask := 0#128, bits := 0#128, eLow := 0x3BCC, eHigh := 0x3C00, mantissa := .any },
    { path := .flush, mask := 0#128, bits := 0#128, eLow := 1, eHigh := 0x3BCB, mantissa := .any } ]

/-- A row's mask and match hold of an operand. -/
def PathRow.maskHolds (r : PathRow) (src : Quad) : Bool := (src &&& r.mask) == r.bits

/-- A row's constraint holds of an operand. -/
def PathRow.constraintHolds (r : PathRow) (src : Quad) : Bool :=
  decide (r.eLow ≤ (srcExponent src).toNat ∧ (srcExponent src).toNat ≤ r.eHigh)
    && r.mantissa.holds (srcMantissa src)

/-- A row selects an operand when its mask and match and its constraint hold (R66). -/
def PathRow.selects (r : PathRow) (src : Quad) : Bool := r.maskHolds src && r.constraintHolds src

/-- The decoder written from the table: the first path row, in the table's order, that holds (R66). -/
def tablePath (src : Quad) : Option Path := (pathRows.find? (·.selects src)).map (·.path)

/-! ## Operands and results as a host's bytes (R43) -/

/-- The bytes of a word, the byte with bits 7:0 first. -/
def littleBytes : (n : Nat) → (w : Nat) → List Byte
  | 0, _ => []
  | n + 1, w => BitVec.ofNat 8 w :: littleBytes n (w / 256)

/-- The number whose bytes these are, the byte with bits 7:0 first. -/
def littleNat : List Byte → Nat
  | [] => 0
  | b :: bs => b.toNat + 256 * littleNat bs

/-- The 16 bytes of an operand in a host's order: `little` puts `src[7:0]` in byte 0, `big` is the
reverse (R43). -/
def operandBytes : ByteOrder → Quad → List Byte
  | .little, src => littleBytes 16 src.toNat
  | .big, src => (littleBytes 16 src.toNat).reverse

/-- The 8 bytes of a result in a host's order (R43). -/
def resultBytes : ByteOrder → Double → List Byte
  | .little, dst => littleBytes 8 dst.toNat
  | .big, dst => (littleBytes 8 dst.toNat).reverse

/-- The operand that 16 bytes of a host hold (R43). -/
def operandOfBytes : ByteOrder → List Byte → Quad
  | .little, bs => BitVec.ofNat 128 (littleNat bs)
  | .big, bs => BitVec.ofNat 128 (littleNat bs.reverse)

/-- Why bytes are no operand. -/
inductive DecodeError where
  /-- Fewer than the operand's 16 bytes: the operand is always presented whole (R44). Safe: no step
  raises it, since the port carries 128 bits. -/
  | truncatedOperand (bytes : Nat)
  deriving DecidableEq, Repr

/-- Decode one operand from the front of a host's bytes and give back the rest. -/
def decodeBytes (order : ByteOrder) (bytes : List Byte) : Except DecodeError (Instr × List Byte) :=
  if bytes.length < 16 then .error (.truncatedOperand bytes.length)
  else .ok (decodeOperand (operandOfBytes order (bytes.take 16)), bytes.drop 16)

/-- `decodeBytes` in the order of this system's host, which the spec leaves open (R43; log 6). -/
def decode (bytes : List Byte) : Except DecodeError (Instr × List Byte) :=
  decodeBytes Config.hostByteOrder bytes

/-- The operand bytes of an instruction in a host's order. -/
def encodeBytes (order : ByteOrder) (i : Instr) : List Byte := operandBytes order (encode i)

/-! ## The table's words -/

/-- The operand that a word of the opcode table stands for: bit i of `w` is `src[i]`, and the bits from
`nbits` up are 0 (DESIGN CHOICE: log 15). -/
def operandOfTableWord (nbits w : Nat) : Quad := BitVec.ofNat 128 (w % 2 ^ nbits)

/-- The instruction the decoder reads from a word of the table; there is no operand of more than 128
bits (R64). -/
def decodeTableWord (nbits w : Nat) : Option Instr :=
  if nbits ≤ 128 then some (decodeOperand (operandOfTableWord nbits w)) else none

end Sys2Proof
end

