-- ==== Sys2Proof/Machine/Signals.lean ====
section
/-! DEFINITION. The transient values of one evaluation, as plain data (spec/10_state.md R27 to R29). None
is stored: they are values of functions, which a model may expose to tests (R10, R182). -/

namespace Sys2Proof.Machine

/-- Decomposed Value, made by `format_decomposer` (R27). -/
structure Decomposed where
  sign : Bit
  exponentField : SrcExp
  mantissaField : SrcMant
  cls : FpClass
  deriving DecidableEq, Repr

/-- Stage A of `exponent_rebias_detector` (R100 to R106). The exponents are unbounded integers (R108). -/
structure StageA where
  trueExponent : Int
  destExponent : Int
  significand : Significand
  overflowPre : Bool
  under : Bool
  k : Nat
  flush : Bool
  deriving DecidableEq, Repr

/-- Every value of `mantissa_rounder_shifter` (R116 to R123). `truncatedMantissa` and `roundUp` are the
data model's Rounded Mantissa (R29). -/
structure Rounded where
  totalShift : Nat
  kept : BitVec 53
  roundBit : Bit
  stickyBit : Bit
  lsb : Bit
  truncatedMantissa : DstMant
  roundUp : Bit
  mantInc : BitVec 53
  carry : Bit
  mantField : DstMant
  deriving DecidableEq, Repr

/-- Stage B of `exponent_rebias_detector` (R109, R110). -/
structure StageB where
  expField1 : BitVec 12
  overflowPost : Bool
  deriving DecidableEq, Repr

/-- What the engine hands the packer on the Finite path (R81, R112). A signal that is undefined on a
path is absent from its constructor (R107, R82; log 12). -/
inductive EngineSignals where
  /-- Overflow before rounding: nothing else of the engine matters (R103). -/
  | overflowPre (a : StageA)
  /-- Flush: the rounder's outputs are unused (R106). -/
  | flush (a : StageA) (expField0 : DstExp)
  /-- The rounder ran (R112). -/
  | rounded (a : StageA) (expField0 : DstExp) (r : Rounded) (b : StageB)
  deriving DecidableEq, Repr

end Sys2Proof.Machine
end

