-- ==== Sys2Proof/Machine/Operands.lean ====
section
/-! DEFINITION. `format_decomposer` (spec/41_format_decomposer.md) and the one assembled operand, the
significand (spec/30_encoding.md R61, spec/42_exponent_rebias_detector.md R104). -/

namespace Sys2Proof.Machine

/-- `class` (R93). The sign takes no part, and no NaN is told from another. -/
def classify (e : SrcExp) (m : SrcMant) : FpClass :=
  if e.toNat = 0 then (if m = 0 then .zero else .subnormal)
  else if e.toNat = Config.srcExpOnes then (if m = 0 then .infinity else .nan)
  else .normal

/-- The Decomposed Value of an operand (R90 to R93). -/
def decompose (src : Quad) : Decomposed :=
  { sign := srcSign src
    exponentField := srcExponent src
    mantissaField := srcMantissa src
    cls := classify (srcExponent src) (srcMantissa src) }

/-- The implicit bit: 1 for Normal; a Subnormal has "an implicit leading 0 instead of 1" (R61, R104). -/
def implicitBit (c : FpClass) : Bit := if c = .normal then 1#1 else 0#1

/-- `significand`: the implicit bit above the mantissa field (R104, R61). -/
def significand (c : FpClass) (m : SrcMant) : Significand := implicitBit c ++ m

end Sys2Proof.Machine
end

