-- ==== Sys2Proof/Machine/Rebias.lean ====
section
/-! DEFINITION. `exponent_rebias_detector` (spec/42_exponent_rebias_detector.md): stage A before the
rounder, stage B after it (R100). The exponents are unbounded integers and nothing wraps (R108). -/

namespace Sys2Proof.Machine

/-- `trueExponent` (R101): a Subnormal has the exponent of code 1. -/
def trueExponent (c : FpClass) (e : SrcExp) : Int :=
  (if c = .normal then (e.toNat : Int) else 1) - Config.srcBias

/-- `destExponent` (R102): signed, not yet a field value. -/
def destExponent (c : FpClass) (e : SrcExp) : Int := trueExponent c e + Config.dstBias

/-- `k`, the extra right shift (R105): 1 for destExponent 0, because field 0 has the effective exponent
of field 1 and no implicit bit. -/
def extraShift (destExponent : Int) : Nat :=
  if under destExponent then (1 - destExponent).toNat else 0

/-- `expField0`, the exponent field before the rounding carry; defined when `overflowPre` is false
(R107). -/
def expField0 (destExponent : Int) : DstExp :=
  if under destExponent then 0 else BitVec.ofInt 11 destExponent

/-- Stage A (R100 to R106). -/
def stageA (limit : Nat) (d : Decomposed) : StageA :=
  let dest := destExponent d.cls d.exponentField
  { trueExponent := trueExponent d.cls d.exponentField
    destExponent := dest
    significand := significand d.cls d.mantissaField
    overflowPre := overflowPre dest
    under := under dest
    k := extraShift dest
    flush := flush limit (under dest) (extraShift dest) }

/-- `expField1` (R109): the carry increments the exponent; 12 bits hold it (R28). -/
def expField1 (expField0 : DstExp) (carry : Bit) : BitVec 12 :=
  expField0.setWidth 12 + carry.setWidth 12

/-- Stage B (R109, R110). -/
def stageB (expField0 : DstExp) (carry : Bit) : StageB :=
  { expField1 := expField1 expField0 carry
    overflowPost := overflowPost (expField1 expField0 carry) }

end Sys2Proof.Machine
end

