-- ==== Sys2Proof/Machine/Rounder.lean ====
section
/-! DEFINITION. `mantissa_rounder_shifter` (spec/43_mantissa_rounder_shifter.md): ONE right shift by the
sum of the two amounts and one rounding (R124). Shifts are mathematical, never taken modulo a width
(R125, decision D13; log 16). -/

namespace Sys2Proof.Machine

/-- `totalShift` (R116). -/
def totalShift (k : Nat) : Nat := Config.truncShift + k

/-- `kept` (R117): at most 53 bits, since `totalShift` is at least 60. -/
def keptBits (sig : Significand) (shift : Nat) : BitVec 53 := (sig >>> shift).setWidth 53

/-- `roundBit`, the highest discarded bit (R118). -/
def roundBitOf (sig : Significand) (shift : Nat) : Bit := bitAt sig (shift - 1)

/-- `stickyBit`, the OR of every discarded bit below the round bit (R119). -/
def stickyBitOf (sig : Significand) (shift : Nat) : Bit := orReduce (lowBits sig (shift - 1))

/-- `roundUp`: half to even (R122). -/
def roundUpOf (roundBit stickyBit lsb : Bit) : Bit := roundBit &&& (stickyBit ||| lsb)

/-- `truncatedMantissa` (R121): the implicit bit, if it is still there, is stripped. -/
def truncatedMantissaOf (kept : BitVec 53) : DstMant := kept.extractLsb' 0 52

/-- `mantInc` (R123): one bit wider than its operand, so the carry is kept. -/
def mantIncOf (truncatedMantissa : DstMant) (roundUp : Bit) : BitVec 53 :=
  truncatedMantissa.setWidth 53 + roundUp.setWidth 53

/-- The rounder: every value from the significand and the extra shift (R115 to R123). -/
def rounder (sig : Significand) (k : Nat) : Rounded :=
  let shift := totalShift k
  let kept := keptBits sig shift
  let roundBit := roundBitOf sig shift
  let stickyBit := stickyBitOf sig shift
  let lsb := bitAt kept 0
  let trunc := truncatedMantissaOf kept
  let up := roundUpOf roundBit stickyBit lsb
  let inc := mantIncOf trunc up
  { totalShift := shift
    kept := kept
    roundBit := roundBit
    stickyBit := stickyBit
    lsb := lsb
    truncatedMantissa := trunc
    roundUp := up
    mantInc := inc
    carry := bitAt inc 52
    mantField := inc.extractLsb' 0 52 }

end Sys2Proof.Machine
end

