-- ==== Sys2Proof/Machine/Packer.lean ====
section
/-! DEFINITION. `ieee754_packer` (spec/44_ieee754_packer.md): one rule per case, and the choice among
them (R135). In every case the sign is the source's (R136) and all 64 bits are driven (R143). -/

namespace Sys2Proof.Machine

/-- `dst = {dSign, dExp, dMant}` (R57). -/
def dstWord (sign : Bit) (exp : DstExp) (mant : DstMant) : Double := sign ++ exp ++ mant

/-- The all-ones exponent field, 0x7FF. -/
def dstExpOnesField : DstExp := BitVec.ofNat 11 Config.dstExpOnes

/-- Zero: signed zero (R137). -/
def packZero (sign : Bit) : Double := dstWord sign 0 0

/-- Infinity: sign forwarded, exponent all ones, mantissa zero (R138). -/
def packInfinity (sign : Bit) : Double := dstWord sign dstExpOnesField 0

/-- NaN: the top 52 mantissa bits of the source with the top one forced to 1 (R139). The low 60 bits are
dropped without rounding. -/
def packNan (sign : Bit) (m : SrcMant) : Double :=
  dstWord sign dstExpOnesField (m.extractLsb' 60 52 ||| Config.dstQuiet)

/-- Overflow: signed infinity (R140). -/
def packOverflow (sign : Bit) : Double := dstWord sign dstExpOnesField 0

/-- Flush to zero: signed zero (R141). -/
def packFlush (sign : Bit) : Double := dstWord sign 0 0

/-- Normal and subnormal results: the finished fields side by side (R142). -/
def packFinite (sign : Bit) (expField1 : BitVec 12) (mantField : DstMant) : Double :=
  dstWord sign (expField1.extractLsb' 0 11) mantField

/-- After the rounder: overflow by the carry, or the finished fields (R135, R110). -/
def packRounded (sign : Bit) (r : Rounded) (b : StageB) : Double :=
  if b.overflowPost then packOverflow sign else packFinite sign b.expField1 r.mantField

/-- The packer on the Finite path (R135). -/
def packEngine (sign : Bit) : EngineSignals → Double
  | .overflowPre _ => packOverflow sign
  | .flush _ _ => packFlush sign
  | .rounded _ _ r b => packRounded sign r b

/-- The rounder, stage B and the packer, one after the other (R81): the shared tail of every evaluation
that rounds. -/
def roundAndPack (sign : Bit) (expField0 : DstExp) (sig : Significand) (k : Nat) : Double :=
  packRounded sign (rounder sig k) (stageB expField0 (rounder sig k).carry)

end Sys2Proof.Machine
end

