-- ==== Sys2Proof/Machine/Narrow.lean ====
section
/-! DEFINITION. The operation `NARROW` (spec/40_narrow_top.md R80): the four sub-blocks in a straight
line (R81), the input port that it follows (R33, R190), and its meaning as an instruction. -/

namespace Sys2Proof.Machine

/-- The Rounding & Rebiasing Engine on a value of class Normal or Subnormal (R100, R112): overflow
before rounding is tested first, then the flush; only then does the rounder run. -/
def engine (limit : Nat) (d : Decomposed) : EngineSignals :=
  let a := stageA limit d
  if a.overflowPre then .overflowPre a
  else
    let e0 := expField0 a.destExponent
    if a.flush then .flush a e0
    else
      let r := rounder a.significand a.k
      .rounded a e0 r (stageB e0 r.carry)

/-- The packer's choice (R135): the class decides first, the engine is used by the Finite path only
(R82). -/
def pack (limit : Nat) (d : Decomposed) : Double :=
  match d.cls with
  | .zero => packZero d.sign
  | .infinity => packInfinity d.sign
  | .nan => packNan d.sign d.mantissaField
  | .subnormal => packEngine d.sign (engine limit d)
  | .normal => packEngine d.sign (engine limit d)

/-- `NARROW` at a flush limit (R80, R11). -/
def narrowWith (limit : Nat) (src : Quad) : Double := pack limit (decompose src)

/-- `NARROW` (R80): binary128 to binary64, rounded to nearest, ties to even, at this hardware's flush
limit (R11, D6). -/
def narrow (src : Quad) : Double := narrowWith Config.flushLimit src

/-- The host presents an operand, any value at any time (R184). The block is combinational: `dst` is a
function of the present value of `src` (R190) and is `NARROW(src)` at all times (R33), so it follows at once. -/
def State.present (s : State) (x : Quad) : State := { s with src := x, dst := narrow x }

/-- Row `NARROW` (R80): the operation on the operand presented. -/
def execNarrow (src : Quad) (s : State) : Host.Outcome State Fault Refusal := complete (narrow src) s

end Sys2Proof.Machine
end

