-- ==== Sys2Proof/Machine/Paths.lean ====
section
/-! DEFINITION. The meanings of the eight path rows (spec/30_encoding.md R62): each is the packer rule of
its path, fed by just the part of the engine that the path uses (spec/40_narrow_top.md R82). -/

namespace Sys2Proof.Machine

/-- Row `NARROW.ZERO` (R137). -/
def execNarrowZero (sign : Bit) (s : State) : Host.Outcome State Fault Refusal :=
  complete (packZero sign) s

/-- Row `NARROW.INF` (R138). -/
def execNarrowInf (sign : Bit) (s : State) : Host.Outcome State Fault Refusal :=
  complete (packInfinity sign) s

/-- Row `NARROW.NAN` (R139). -/
def execNarrowNan (sign : Bit) (m : SrcMant) (s : State) : Host.Outcome State Fault Refusal :=
  complete (packNan sign m) s

/-- Row `NARROW.SUBN_SRC`: every source Subnormal is flushed, whatever its mantissa field (R111, R141). -/
def execNarrowSubnSrc (sign : Bit) (_m : SrcMant) (s : State) : Host.Outcome State Fault Refusal :=
  complete (packFlush sign) s

/-- Row `NARROW.OVF`: overflow before rounding, whatever E and M are within the row (R103, R140). -/
def execNarrowOvf (sign : Bit) (_e : SrcExp) (_m : SrcMant) (s : State) :
    Host.Outcome State Fault Refusal :=
  complete (packOverflow sign) s

/-- Row `NARROW.NORM`: no extra shift; the result is a normal value, or infinity when the rounding carry
of E = 0x43FE overflows (R116, R142, R110, R140). -/
def execNarrowNorm (sign : Bit) (e : SrcExp) (m : SrcMant) (s : State) :
    Host.Outcome State Fault Refusal :=
  complete (roundAndPack sign (expField0 (destExponent .normal e)) (significand .normal m) 0) s

/-- Row `NARROW.SUB`: exponent field 0 before the carry and an extra shift of `1 - destExponent`
(R105, R107, R142). -/
def execNarrowSub (sign : Bit) (e : SrcExp) (m : SrcMant) (s : State) :
    Host.Outcome State Fault Refusal :=
  complete (roundAndPack sign 0 (significand .normal m) (extraShift (destExponent .normal e))) s

/-- Row `NARROW.FLUSH`: flush to signed zero, whatever E and M are within the row (R106, R141). -/
def execNarrowFlush (sign : Bit) (_e : SrcExp) (_m : SrcMant) (s : State) :
    Host.Outcome State Fault Refusal :=
  complete (packFlush sign) s

end Sys2Proof.Machine
end

