-- ==== Sys2Proof/Machine/Dispatch.lean ====
section
/-! DEFINITION. One arm per constructor of Instr, each one direct call of its meaning. -/

namespace Sys2Proof.Machine

-- One evaluation, as the row that the instruction stands for gives it.
def exec (i : Instr) (s : State) : Host.Outcome State Fault Refusal :=
  match i with
  | .narrow src => Sys2Proof.Machine.execNarrow src s
  | .narrowZero sign => Sys2Proof.Machine.execNarrowZero sign s
  | .narrowInf sign => Sys2Proof.Machine.execNarrowInf sign s
  | .narrowNan sign m => Sys2Proof.Machine.execNarrowNan sign m s
  | .narrowSubnSrc sign m => Sys2Proof.Machine.execNarrowSubnSrc sign m s
  | .narrowOvf sign e m => Sys2Proof.Machine.execNarrowOvf sign e m s
  | .narrowNorm sign e m => Sys2Proof.Machine.execNarrowNorm sign e m s
  | .narrowSub sign e m => Sys2Proof.Machine.execNarrowSub sign e m s
  | .narrowFlush sign e m => Sys2Proof.Machine.execNarrowFlush sign e m s

end Sys2Proof.Machine
end

