-- ==== Sys2Proof/Machine/Step.lean ====
section
/-! DEFINITION. One step is one evaluation (spec/00_scope.md R17, spec/70_reset_and_hazards.md R194): the
operand on `src` selects its path and `dst` is driven. There is no fetch and no program counter
(spec/10_state.md R21). -/

namespace Sys2Proof.Machine

/-- Evaluate the operand that stands on `src`. -/
def step (s : State) : Host.Outcome State Fault Refusal := exec (decodeOperand s.src) s

/-- `s` with a word of the opcode table presented on `src`, which is all that the next step reads; `dst`
follows `src`, as it does for any operand (R33; DESIGN CHOICE: log 5). -/
def State.withFetchWord (s : State) (nbits w : Nat) : State := s.present (operandOfTableWord nbits w)

end Sys2Proof.Machine
end

