-- ==== Sys2Proof/Machine/Reference.lean ====
section
/-! DEFINITION. The whole operation in one block of pseudocode over unbounded integers, line for line as
spec/40_narrow_top.md R80 writes it (and spec/95_test_vectors.md section 7 transcribes it), independent
of the sub-blocks, and the closed form of R85. Claims compare the sub-blocks with them; where a
sub-block rule and R80 differ the sub-block rule is the definition. -/

namespace Sys2Proof.Machine

/-- R80's pseudocode at a flush limit. The three fields are the operand's, read by division. -/
def narrowPseudocode (limit : Nat) (src : Nat) : Nat :=
  let sign : Nat := src / 2 ^ 127 % 2
  let e : Nat := src / 2 ^ 112 % 2 ^ 15
  let m : Nat := src % 2 ^ 112
  if e = 0 ∧ m = 0 then sign * 2 ^ 63
  else if e = 0x7FFF ∧ m = 0 then sign * 2 ^ 63 + 0x7FF * 2 ^ 52
  else if e = 0x7FFF then sign * 2 ^ 63 + 0x7FF * 2 ^ 52 + ((m / 2 ^ 60) ||| 0x8000000000000)
  else
    let trueExponent : Int := (if e = 0 then 1 else (e : Int)) - 16383
    let destExponent : Int := trueExponent + 1023
    let significand : Nat := (if e = 0 then 0 else 2 ^ 112) + m
    if 2047 ≤ destExponent then sign * 2 ^ 63 + 0x7FF * 2 ^ 52
    else
      let k : Nat := if destExponent ≤ 0 then (1 - destExponent).toNat else 0
      if destExponent ≤ 0 ∧ limit < k then sign * 2 ^ 63
      else
        let field0 : Nat := if destExponent ≤ 0 then 0 else destExponent.toNat
        let shift : Nat := 60 + k
        let kept : Nat := significand / 2 ^ shift
        let roundBit : Nat := significand / 2 ^ (shift - 1) % 2
        let stickyBit : Nat := if significand % 2 ^ (shift - 1) = 0 then 0 else 1
        let lsb : Nat := kept % 2
        let roundUp : Nat := if roundBit = 1 ∧ (stickyBit = 1 ∨ lsb = 1) then 1 else 0
        let mantInc : Nat := kept % 2 ^ 52 + roundUp
        let field1 : Nat := field0 + mantInc / 2 ^ 52
        if 2047 ≤ field1 then sign * 2 ^ 63 + 0x7FF * 2 ^ 52
        else sign * 2 ^ 63 + field1 * 2 ^ 52 + mantInc % 2 ^ 52

/-- A number divided by 2^shift and rounded to nearest, ties to even: what one shift and one rounding do
(R116 to R124). -/
def roundShift (n shift : Nat) : Nat :=
  let q := n / 2 ^ shift
  let r := n % 2 ^ shift
  if 2 ^ shift < 2 * r ∨ (2 * r = 2 ^ shift ∧ q % 2 = 1) then q + 1 else q

end Sys2Proof.Machine
end

