-- ==== Sys2Proof/Machine/Evaluate.lean ====
section
/-! DEFINITION. What a host does with blocks (spec/60_exceptions.md R184): present an operand and read the
result, many times on one block (spec/30_encoding.md R65, spec/70_reset_and_hazards.md R194) or on any
number of blocks in any order (spec/20_memory.md R47, R181). -/

namespace Sys2Proof.Machine

/-- Present an operand and evaluate it (R184). -/
def evaluate (x : Quad) (s : State) : Host.Outcome State Fault Refusal := step (s.present x)

/-- Go on from a next state; a fault or a refusal ends the run. -/
def andThen {α β : Type} (o : Host.Outcome α Fault Refusal) (f : α → Host.Outcome β Fault Refusal) :
    Host.Outcome β Fault Refusal :=
  match o with
  | .next a => f a
  | .fault r => .fault r
  | .refused r => .refused r

/-- A sequence of evaluations on one block: the block at the end, and the `dst` values in the order the
operands were given (R194). -/
def runEvaluations : List Quad → State → Host.Outcome (State × List Double) Fault Refusal
  | [], s => .next (s, [])
  | x :: xs, s =>
    andThen (evaluate x s) fun t =>
      andThen (runEvaluations xs t) fun (u, results) => .next (u, t.dst :: results)

/-- Evaluations on n blocks that share nothing, in the order of the list: which block, which operand
(R47, R181; log 11). -/
def runBank {n : Nat} : List (Fin n × Quad) → Vector State n →
    Host.Outcome (Vector State n × List (Fin n × Double)) Fault Refusal
  | [], bank => .next (bank, [])
  | (b, x) :: rest, bank =>
    andThen (evaluate x (bank.get b)) fun t =>
      andThen (runBank rest (bank.set b t)) fun (bank', results) => .next (bank', (b, t.dst) :: results)

end Sys2Proof.Machine
end

