-- ==== Sys2Proof/Machine/Value.lean ====
section
/-! DEFINITION. The vocabulary of spec/45_properties.md: the class and the value of a word of either format
(spec/30_encoding.md R58, R59), and the words that differ in the sign alone. Used by claims only; the
block itself never classifies a destination word (R95). Values are exact rationals (log 17). -/

namespace Sys2Proof.Machine

/-- `cls(w)` of a source word (R58). -/
def srcClass (w : Quad) : FpClass := classify (srcExponent w) (srcMantissa w)

/-- The exponent field of a destination word, bits 62:52 (R57). -/
def dstExponent (w : Double) : DstExp := w.extractLsb' 52 11

/-- The mantissa field of a destination word, bits 51:0 (R57). -/
def dstMantissa (w : Double) : DstMant := w.extractLsb' 0 52

/-- The sign of a destination word, bit 63 (R57). -/
def dstSignOf (w : Double) : Bit := w.extractLsb' 63 1

/-- `w[62:0]`, the magnitude code of a destination word (R154). -/
def dstCode (w : Double) : Nat := (w.extractLsb' 0 63).toNat

/-- `w[126:0]`, the magnitude code of a source word (R159). -/
def srcCode (w : Quad) : Nat := (w.extractLsb' 0 127).toNat

/-- `cls(w)` of a destination word (R58). -/
def dstClass (w : Double) : FpClass :=
  if (dstExponent w).toNat = 0 then (if dstMantissa w = 0 then .zero else .subnormal)
  else if (dstExponent w).toNat = Config.dstExpOnes then
    (if dstMantissa w = 0 then .infinity else .nan)
  else .normal

/-- A class that has a value (R59). -/
def FpClass.isFinite : FpClass → Bool
  | .zero | .subnormal | .normal => true
  | .infinity | .nan => false

/-- |val| of a finite word of a format with these fields (R59): an exponent field of 0 has no implicit
bit and the effective exponent of field 1. -/
def magnitude (f : Config.FormatDescriptor) (e m : Nat) : ℚ :=
  if e = 0 then (m : ℚ) / 2 ^ f.mantissaBits * (2 : ℚ) ^ (1 - (f.exponentBias : Int))
  else (1 + (m : ℚ) / 2 ^ f.mantissaBits) * (2 : ℚ) ^ ((e : Int) - (f.exponentBias : Int))

/-- `(-1)^sign` times a magnitude (R59). -/
def signed (sign : Bit) (v : ℚ) : ℚ := if sign = 1#1 then -v else v

/-- |val(w)| of a finite source word (R59). -/
def srcMagnitude (w : Quad) : ℚ :=
  magnitude Config.srcFormat (srcExponent w).toNat (srcMantissa w).toNat

/-- val(w) of a finite source word (R59). -/
def srcValue (w : Quad) : ℚ := signed (srcSign w) (srcMagnitude w)

/-- |val(w)| of a finite destination word (R59). -/
def dstMagnitude (w : Double) : ℚ :=
  magnitude Config.dstFormat (dstExponent w).toNat (dstMantissa w).toNat

/-- val(w) of a finite destination word (R59). -/
def dstValue (w : Double) : ℚ := signed (dstSignOf w) (dstMagnitude w)

/-- R154's map g: the value of the non-negative destination word with low 63 bits n. -/
def codeValue (n : Nat) : ℚ := magnitude Config.dstFormat (n / 2 ^ 52) (n % 2 ^ 52)

/-- The largest finite magnitude code, 0x7FEFFFFFFFFFFFFF (R154). -/
def maxFiniteCode : Nat := 0x7FEFFFFFFFFFFFFF

/-- `neg128(x)`: the source word with the other sign (R158). -/
def neg128 (x : Quad) : Quad := x ^^^ BitVec.ofNat 128 (2 ^ 127)

/-- `neg64(y)`: the destination word with the other sign (R158). -/
def neg64 (y : Double) : Double := y ^^^ Config.dstSign

end Sys2Proof.Machine
end

