-- ==== Sys2Proof/Safety.lean ====
section
/-! DEFINITION. What counts as right, in the terms the claims use: a settled block and a legal result. The
block has no fault to be safe from (spec/60_exceptions.md R170); its one failure would be a result that
is not the IEEE-754-mandated one (R172). -/

namespace Sys2Proof

/-- The block shows the result of the operand it is given: `dst = NARROW(src)`, at all times
(spec/10_state.md R33, spec/70_reset_and_hazards.md R186, R190). A pair of port values that is not settled
is no state of the block: reset is settled, and presenting an operand and every step keep it. -/
def Settled (s : Machine.State) : Prop := s.dst = Machine.narrow s.src

/-- A word the packer can produce (spec/44_ieee754_packer.md R144): every word but a NaN with bit 51
clear. -/
def Producible (d : Double) : Prop :=
  Machine.dstClass d = .nan → (Machine.dstMantissa d).getLsbD 51 = true

/-- n is the code of the finite destination value nearest to v, the even one of two (R154). -/
def NearestEven (v : ℚ) (n : Nat) : Prop :=
  n ≤ Machine.maxFiniteCode ∧
  ∀ m ≤ Machine.maxFiniteCode,
    |Machine.codeValue n - v| ≤ |Machine.codeValue m - v| ∧
    (m ≠ n → |Machine.codeValue m - v| = |Machine.codeValue n - v| → n % 2 = 0)

end Sys2Proof
end

