-- ==== Sys2Proof/Certificates/Slice0/Obligations.lean ====
section
/-! DEFINITION. The statements for the provers, in the order of OBLIGATIONS.json. Each docstring names the
rule of spec/ it formalises. Nothing is proved here. A statement says `.next ⟨s.src, v⟩` for an
evaluation's end: State has the two ports only, so the equation is the result and the frame at once. -/

open Sys2Proof Sys2Proof.Machine

/-! ## Operand words, rows and decoding -/

/-- Words written out from R56 and R62 decode to the instruction they stand for, one for each path row. -/
def Obligations.SpecWordsDecodeToTheirRows : Prop :=
  decodeOperand 0x80000000000000000000000000000000#128 = .narrowZero 1#1 ∧
  decodeOperand 0xFFFF0000000000000000000000000000#128 = .narrowInf 1#1 ∧
  decodeOperand 0x7FFF0000000000000000000000000001#128 = .narrowNan 0#1 1#112 ∧
  decodeOperand 0x00000000000000000000000000000001#128 = .narrowSubnSrc 0#1 1#112 ∧
  decodeOperand 0xC3FF0000000000000000000000000000#128 = .narrowOvf 1#1 0x43FF#15 0#112 ∧
  decodeOperand 0x3C010000000000000000000000000000#128 = .narrowNorm 0#1 0x3C01#15 0#112 ∧
  decodeOperand 0xBBCC8000000000000000000000000000#128 =
    .narrowSub 1#1 0x3BCC#15 0x8000000000000000000000000000#112 ∧
  decodeOperand 0x3BCB0000000000000000000000000000#128 = .narrowFlush 0#1 0x3BCB#15 0#112

/-- R56: the operand is `sign·2^127 + E·2^112 + M` with sign the top bit, E the 15 bits below it and M
the low 112 bits. -/
def Obligations.OperandIsSignExponentMantissa : Prop :=
  ∀ src : Quad,
    src.toNat = (srcSign src).toNat * 2 ^ 127 + (srcExponent src).toNat * 2 ^ 112
      + (srcMantissa src).toNat ∧
    srcWord (srcSign src) (srcExponent src) (srcMantissa src) = src ∧
    (srcSign src).getLsbD 0 = src.getLsbD 127 ∧
    (∀ i < 15, (srcExponent src).getLsbD i = src.getLsbD (112 + i)) ∧
    (∀ i < 112, (srcMantissa src).getLsbD i = src.getLsbD i)

/-- R93: the class of an operand, total and exclusive; the sign takes no part. -/
def Obligations.ClassFollowsExponentAndMantissa : Prop :=
  ∀ src : Quad,
    ((decompose src).cls = .zero ↔ (srcExponent src).toNat = 0 ∧ (srcMantissa src).toNat = 0) ∧
    ((decompose src).cls = .subnormal ↔ (srcExponent src).toNat = 0 ∧ (srcMantissa src).toNat ≠ 0) ∧
    ((decompose src).cls = .infinity ↔
      (srcExponent src).toNat = 0x7FFF ∧ (srcMantissa src).toNat = 0) ∧
    ((decompose src).cls = .nan ↔ (srcExponent src).toNat = 0x7FFF ∧ (srcMantissa src).toNat ≠ 0) ∧
    ((decompose src).cls = .normal ↔
      (srcExponent src).toNat ≠ 0 ∧ (srcExponent src).toNat ≠ 0x7FFF)

/-- Decoding any operand and encoding again gives the operand back, and what decoding gives is a
well-formed path instruction: no operand is refused (R63). -/
def Obligations.EncodeOfDecodeIsTheOperand : Prop :=
  ∀ src : Quad,
    encode (decodeOperand src) = src ∧ (decodeOperand src).wellFormed = true ∧
    (decodeOperand src).path?.isSome = true

/-- Decoding the operand word of a well-formed path instruction gives it back, with every field at every
value; the operand word of `narrow src` is `src` (R56, R62). -/
def Obligations.DecodeOfEncodeIsTheInstruction : Prop :=
  (∀ i : Instr, i.wellFormed = true → i.path?.isSome = true → decodeOperand (encode i) = i) ∧
  (∀ src : Quad, encode (.narrow src) = src)

/-- R62: exactly one path is selected, by these ranges of E and these tests of M, or by these masks; the
sign bit takes part in none. -/
def Obligations.OperandSelectsExactlyOnePath : Prop :=
  ∀ src : Quad,
    let e := (srcExponent src).toNat
    let m := (srcMantissa src).toNat
    let p := (decodeOperand src).path?
    (p = some .zero ↔ e = 0 ∧ m = 0) ∧
    (p = some .inf ↔ e = 0x7FFF ∧ m = 0) ∧
    (p = some .nan ↔ e = 0x7FFF ∧ m ≠ 0) ∧
    (p = some .subnSrc ↔ e = 0 ∧ m ≠ 0) ∧
    (p = some .ovf ↔ 0x43FF ≤ e ∧ e ≤ 0x7FFE) ∧
    (p = some .norm ↔ 0x3C01 ≤ e ∧ e ≤ 0x43FE) ∧
    (p = some .sub ↔ 0x3BCC ≤ e ∧ e ≤ 0x3C00) ∧
    (p = some .flush ↔ 1 ≤ e ∧ e ≤ 0x3BCB) ∧
    (p = some .zero ↔ src &&& 0x7FFFFFFFFFFFFFFFFFFFFFFFFFFFFFFF#128 = 0) ∧
    (p = some .inf ↔ src &&& 0x7FFFFFFFFFFFFFFFFFFFFFFFFFFFFFFF#128
      = 0x7FFF0000000000000000000000000000#128) ∧
    (p = some .nan ↔ src &&& 0x7FFF0000000000000000000000000000#128
      = 0x7FFF0000000000000000000000000000#128 ∧ m ≠ 0) ∧
    (p = some .subnSrc ↔ src &&& 0x7FFF0000000000000000000000000000#128 = 0 ∧ m ≠ 0) ∧
    (decodeOperand (src ^^^ 0x80000000000000000000000000000000#128)).path? = p

/-- R66: exactly one path row of the opcode table selects an operand, the first that holds names the path
the decoder takes, and a row's constraint alone also decides it. -/
def Obligations.OpcodeTableDecodesAsTheDecoder : Prop :=
  ∀ src : Quad,
    tablePath src = (decodeOperand src).path? ∧
    (∃ r ∈ pathRows, r.selects src = true ∧ ∀ r' ∈ pathRows, r'.selects src = true → r' = r) ∧
    (∀ r ∈ pathRows, r.constraintHolds src = true → r.selects src = true)

/-- A step is exec of the decoded instruction at the same state: nothing is fetched, no counter moves
(R21, R55). The same for 16 bytes of a host presented on the port (R43). -/
def Obligations.StepRunsTheDecodedInstruction : Prop :=
  (∀ s : State, step s = exec (decodeOperand s.src) s) ∧
  (∀ (order : ByteOrder) (bytes rest : List Byte) (i : Instr) (s : State),
    decodeBytes order bytes = .ok (i, rest) →
    step (s.present (operandOfBytes order (bytes.take 16)))
      = exec i (s.present (operandOfBytes order (bytes.take 16))))

/-- A word of the opcode table, presented on the port, is the operand with the word's bits, `dst` follows
it (R33), and the next step runs the instruction the decoder reads from it (the model's interface, log 5 and
15). -/
def Obligations.TableWordIsRunByTheNextStep : Prop :=
  ∀ (s : State) (nbits w : Nat), nbits ≤ 128 →
    (∀ i < 128, (s.withFetchWord nbits w).src.getLsbD i = (decide (i < nbits) && w.testBit i)) ∧
    (s.withFetchWord nbits w).dst = narrow (s.withFetchWord nbits w).src ∧
    ∃ i, decodeTableWord nbits w = some i ∧
      step (s.withFetchWord nbits w) = exec i (s.withFetchWord nbits w)

/-- R43: under `little` byte j of an operand holds `src[8j+7:8j]`, under `big` byte 15 - j does, and the
operand is read back from its bytes. R43 spells out the operand only: that a result's 8 bytes stand in the
same order is the model's choice (DESIGN CHOICE: log 6). -/
def Obligations.HostBytesHoldTheWord : Prop :=
  (∀ src : Quad,
    (operandBytes .little src).length = 16 ∧
    (∀ j < 16, (operandBytes .little src)[j]? = some (src.extractLsb' (8 * j) 8)) ∧
    operandBytes .big src = (operandBytes .little src).reverse ∧
    (∀ order, operandOfBytes order (operandBytes order src) = src)) ∧
  (∀ dst : Double,
    (resultBytes .little dst).length = 8 ∧
    (∀ j < 8, (resultBytes .little dst)[j]? = some (dst.extractLsb' (8 * j) 8)) ∧
    resultBytes .big dst = (resultBytes .little dst).reverse)

/-- An operand is always presented whole (R44): fewer than 16 bytes are refused by name, 16 or more give
the decoded instruction of the first 16 and leave the rest (the model's own convention, log 14). -/
def Obligations.OnlyWholeOperandsAreDecoded : Prop :=
  (∀ (order : ByteOrder) (bytes : List Byte), bytes.length < 16 →
    decodeBytes order bytes = .error (.truncatedOperand bytes.length)) ∧
  (∀ (order : ByteOrder) (i : Instr) (rest : List Byte),
    i.wellFormed = true → i.path?.isSome = true →
    decodeBytes order (encodeBytes order i ++ rest) = .ok (i, rest))

/-! ## What each row does -/

/-- R137: a zero gives signed zero. -/
def Obligations.ZeroGivesSignedZero : Prop :=
  ∀ (sign : Bit) (s : State),
    exec (.narrowZero sign) s = .next ⟨s.src, sign ++ 0x000#11 ++ 0x0000000000000#52⟩

/-- R138: an infinity gives the infinity of its sign. -/
def Obligations.InfinityGivesSignedInfinity : Prop :=
  ∀ (sign : Bit) (s : State),
    exec (.narrowInf sign) s = .next ⟨s.src, sign ++ 0x7FF#11 ++ 0x0000000000000#52⟩

/-- R139: a NaN keeps its sign and the top 52 mantissa bits, with bit 51 forced to 1; the low 60 bits are
dropped; the result is a NaN. -/
def Obligations.NanKeepsTopPayloadAndIsQuieted : Prop :=
  ∀ (sign : Bit) (m : SrcMant) (s : State),
    ∃ d : Double,
      exec (.narrowNan sign m) s = .next ⟨s.src, d⟩ ∧
      d = sign ++ 0x7FF#11 ++ (m.extractLsb' 60 52 ||| 0x8000000000000#52) ∧
      d.getLsbD 51 = true ∧ (∀ i < 51, d.getLsbD i = m.getLsbD (i + 60)) ∧ dstClass d = .nan

/-- R140: overflow before rounding (its row) and overflow by the rounding carry (in the row of normal
results) give signed infinity, the word that R138 gives. -/
def Obligations.OverflowGivesSignedInfinity : Prop :=
  (∀ (sign : Bit) (e : SrcExp) (m : SrcMant) (s : State),
    exec (.narrowOvf sign e m) s = .next ⟨s.src, sign ++ 0x7FF#11 ++ 0x0000000000000#52⟩) ∧
  (∀ (sign : Bit) (e : SrcExp) (m : SrcMant) (s : State),
    (stageB (expField0 (destExponent .normal e)) (rounder (significand .normal m) 0).carry).overflowPost
      = true →
    exec (.narrowNorm sign e m) s = .next ⟨s.src, sign ++ 0x7FF#11 ++ 0x0000000000000#52⟩)

/-- R141: the flush row and the row of source subnormals give signed zero, whatever E and M are. -/
def Obligations.FlushRowsGiveSignedZero : Prop :=
  (∀ (sign : Bit) (e : SrcExp) (m : SrcMant) (s : State),
    exec (.narrowFlush sign e m) s = .next ⟨s.src, sign ++ 0x000#11 ++ 0x0000000000000#52⟩) ∧
  (∀ (sign : Bit) (m : SrcMant) (s : State),
    exec (.narrowSubnSrc sign m) s = .next ⟨s.src, sign ++ 0x000#11 ++ 0x0000000000000#52⟩)

/-- The row of normal results (R142, R110, R85): the 63-bit code is the rebiased exponent, counted from
0x3C01, above the significand divided by 2^60 and rounded half to even. One addition carries from the
mantissa into the exponent, and an overflow by the carry is the code of infinity. -/
def Obligations.NormalRowRoundsOnceAtSixty : Prop :=
  ∀ (sign : Bit) (e : SrcExp) (m : SrcMant) (s : State),
    0x3C01 ≤ e.toNat → e.toNat ≤ 0x43FE →
    ∃ code : Nat,
      code = (e.toNat - 0x3C01) * 2 ^ 52 + roundShift (2 ^ 112 + m.toNat) 60 ∧
      code ≤ 0x7FF0000000000000 ∧
      exec (.narrowNorm sign e m) s = .next ⟨s.src, sign ++ BitVec.ofNat 63 code⟩

/-- The row of subnormal results (R142, R105, R124): the 63-bit code is the significand divided by
2^(60 + k) and rounded half to even, once, with k = 15361 - E; it may be zero or the smallest normal. -/
def Obligations.SubnormalRowRoundsOnceAtTheFullShift : Prop :=
  ∀ (sign : Bit) (e : SrcExp) (m : SrcMant) (s : State),
    0x3BCC ≤ e.toNat → e.toNat ≤ 0x3C00 →
    ∃ code : Nat,
      code = roundShift (2 ^ 112 + m.toNat) (60 + (15361 - e.toNat)) ∧
      code ≤ 2 ^ 52 ∧
      exec (.narrowSub sign e m) s = .next ⟨s.src, sign ++ BitVec.ofNat 63 code⟩

/-- R142: without overflow the result is the finished fields side by side; and the rule's four corner
cases: a subnormal that carries, one that rounds to zero, one that rounds up to the smallest, and a normal
result that carries. -/
def Obligations.FiniteRowsPackTheFinishedFields : Prop :=
  (∀ (sign : Bit) (e : SrcExp) (m : SrcMant) (s : State), 0x3C01 ≤ e.toNat → e.toNat ≤ 0x43FE →
    let r := rounder (significand .normal m) 0
    let b := stageB (expField0 (destExponent .normal e)) r.carry
    b.overflowPost = false →
    b.expField1.toNat ≤ 2046 ∧
    exec (.narrowNorm sign e m) s
      = .next ⟨s.src, sign ++ b.expField1.extractLsb' 0 11 ++ r.mantField⟩ ∧
    (r.carry = 1 →
      (b.expField1.toNat : Int) = destExponent .normal e + 1 ∧ r.mantField = 0)) ∧
  (∀ (sign : Bit) (e : SrcExp) (m : SrcMant) (s : State), 0x3BCC ≤ e.toNat → e.toNat ≤ 0x3C00 →
    let r := rounder (significand .normal m) (extraShift (destExponent .normal e))
    let b := stageB 0 r.carry
    b.overflowPost = false ∧
    exec (.narrowSub sign e m) s
      = .next ⟨s.src, sign ++ b.expField1.extractLsb' 0 11 ++ r.mantField⟩ ∧
    (r.carry = 1 → exec (.narrowSub sign e m) s = .next ⟨s.src, sign ++ 1#11 ++ 0#52⟩) ∧
    (r.kept = 0 ∧ r.roundUp = 0 → exec (.narrowSub sign e m) s = .next ⟨s.src, sign ++ 0#11 ++ 0#52⟩) ∧
    (r.kept = 0 ∧ r.roundUp = 0 ↔ e.toNat = 0x3BCC ∧ m = 0) ∧
    (r.kept = 0 ∧ r.roundUp = 1 → exec (.narrowSub sign e m) s = .next ⟨s.src, sign ++ 0#11 ++ 1#52⟩))

/-- R80: the operation is the pseudocode of R80 over unbounded integers, at this hardware's flush limit,
for every operand. -/
def Obligations.NarrowIsThePseudocode : Prop :=
  ∀ (src : Quad) (s : State),
    exec (.narrow src) s = .next ⟨s.src, narrow src⟩ ∧
    (narrow src).toNat = narrowPseudocode 53 src.toNat

/-- The operation on an operand and the path row that the operand selects are the same evaluation: the
sub-blocks in a line (R81) and the row's own packer rule (R82) give one result. That the row NARROW stands
beside its path rows as an instruction of its own is the model's reading of R66 (DEDUCED: log 4). -/
def Obligations.NarrowIsThePathRowOfItsOperand : Prop :=
  ∀ (src : Quad) (s : State), exec (.narrow src) s = exec (decodeOperand src) s

/-! ## The exponent half -/

/-- R101: the true exponent and its range; a Subnormal has that of code 1. -/
def Obligations.TrueExponentRemovesSourceBias : Prop :=
  (∀ e : SrcExp, trueExponent .subnormal e = -16382) ∧
  (∀ e : SrcExp, trueExponent .normal e = (e.toNat : Int) - 16383) ∧
  (∀ e : SrcExp, 1 ≤ e.toNat → e.toNat ≤ 32766 →
    -16382 ≤ trueExponent .normal e ∧ trueExponent .normal e ≤ 16383)

/-- R102: the rebiased exponent and its range. -/
def Obligations.DestExponentAddsDestinationBias : Prop :=
  (∀ (c : FpClass) (e : SrcExp), destExponent c e = trueExponent c e + 1023) ∧
  (∀ e : SrcExp, destExponent .normal e = (e.toNat : Int) - 15360) ∧
  (∀ e : SrcExp, destExponent .subnormal e = -15359) ∧
  (∀ e : SrcExp, 1 ≤ e.toNat → e.toNat ≤ 32766 →
    -15359 ≤ destExponent .normal e ∧ destExponent .normal e ≤ 17406)

/-- R103: overflow before rounding is `destExponent >= 2047`, which for a Normal is `E >= 0x43FF`, and it
gives the infinity of the source's sign. -/
def Obligations.OverflowBeforeRoundingAtAllOnesCode : Prop :=
  (∀ d : Int, overflowPre d = true ↔ 2047 ≤ d) ∧
  (∀ e : SrcExp, overflowPre (destExponent .normal e) = true ↔ 0x43FF ≤ e.toNat) ∧
  (∀ src : Quad, srcClass src = .normal → overflowPre (destExponent .normal (srcExponent src)) = true →
    narrow src = srcSign src ++ 0x7FF#11 ++ 0#52)

/-- R105: `under` and the extra shift, in terms of destExponent and of the source field, and its range;
`under` and overflow before rounding never hold together. -/
def Obligations.ExtraShiftDenormalises : Prop :=
  (∀ d : Int, under d = true ↔ d ≤ 0) ∧
  (∀ d : Int, d ≤ 0 → (extraShift d : Int) = 1 - d ∧ 1 ≤ extraShift d) ∧
  (∀ d : Int, 0 < d → extraShift d = 0) ∧
  (∀ d : Int, ¬ (under d = true ∧ overflowPre d = true)) ∧
  (∀ e : SrcExp, under (destExponent .subnormal e) = true ∧
    extraShift (destExponent .subnormal e) = 15360) ∧
  (∀ e : SrcExp, under (destExponent .normal e) = true ↔ e.toNat ≤ 0x3C00) ∧
  (∀ e : SrcExp, e.toNat ≤ 0x3C00 → extraShift (destExponent .normal e) = 15361 - e.toNat) ∧
  (∀ e : SrcExp, 1 ≤ e.toNat → extraShift (destExponent .normal e) ≤ 15360)

/-- R106: the flush condition at the limit 53, which for a Normal is `E <= 0x3BCB`, and its result, signed
zero. -/
def Obligations.FlushBeyondTheFlushLimit : Prop :=
  (∀ (u : Bool) (k : Nat), flush Config.flushLimit u k = true ↔ u = true ∧ 53 < k) ∧
  (∀ (e : SrcExp) (m : SrcMant), 1 ≤ e.toNat →
    ((stageA Config.flushLimit ⟨0#1, e, m, .normal⟩).flush = true ↔ e.toNat ≤ 0x3BCB)) ∧
  (∀ src : Quad, srcClass src = .normal ∨ srcClass src = .subnormal →
    (stageA Config.flushLimit (decompose src)).flush = true →
    narrow src = srcSign src ++ 0#11 ++ 0#52)

/-- R104, R61: the significand is the mantissa field with the implicit bit of its class above it, its
range, and the value it stands for. -/
def Obligations.SignificandReinstatesImplicitBit : Prop :=
  (∀ m : SrcMant,
    (significand .normal m).toNat = 2 ^ 112 + m.toNat ∧ (significand .subnormal m).toNat = m.toNat ∧
    2 ^ 112 ≤ (significand .normal m).toNat ∧ (significand .normal m).toNat ≤ 2 ^ 113 - 1 ∧
    (significand .subnormal m).toNat ≤ 2 ^ 112 - 1) ∧
  (∀ src : Quad, srcClass src = .normal ∨ srcClass src = .subnormal →
    srcMagnitude src = ((significand (srcClass src) (srcMantissa src)).toNat : ℚ)
      * (2 : ℚ) ^ (trueExponent (srcClass src) (srcExponent src) - 112))

/-- R107: the exponent field before the carry, wherever overflow before rounding does not hold. -/
def Obligations.ExponentFieldClampsAtZero : Prop :=
  ∀ d : Int, overflowPre d = false →
    (d ≤ 0 → (expField0 d).toNat = 0) ∧ (0 < d → ((expField0 d).toNat : Int) = d) ∧
    (expField0 d).toNat ≤ 2046

/-- R109, R110: stage B adds the carry to the exponent field; overflow after rounding is the code 2047,
and on the operands that are rounded it occurs exactly for E = 0x43FE with the top 53 mantissa bits set. -/
def Obligations.CarryIncrementsTheExponentField : Prop :=
  (∀ (e0 : DstExp) (carry : Bit), e0.toNat ≤ 2046 →
    (stageB e0 carry).expField1.toNat = e0.toNat + carry.toNat ∧
    ((stageB e0 carry).overflowPost = true ↔ e0.toNat = 2046 ∧ carry = 1#1)) ∧
  (∀ (e : SrcExp) (m : SrcMant), 0x3BCC ≤ e.toNat → e.toNat ≤ 0x43FE →
    let d := destExponent .normal e
    ((stageB (expField0 d) (rounder (significand .normal m) (extraShift d)).carry).overflowPost = true ↔
      e.toNat = 0x43FE ∧ m.toNat / 2 ^ 59 = 2 ^ 53 - 1))

/-- R111: every source Subnormal, and every Normal with E <= 0x3BCB, gives signed zero. -/
def Obligations.TinySourcesAreFlushed : Prop :=
  ∀ (src : Quad) (old : Double),
    (srcClass src = .subnormal ∨ (srcClass src = .normal ∧ (srcExponent src).toNat ≤ 0x3BCB)) →
    step ⟨src, old⟩ = .next ⟨src, srcSign src ++ 0#11 ++ 0#52⟩ ∧
    (∃ a e0, engine Config.flushLimit (decompose src) = .flush a e0)

/-! ## The mantissa half -/

/-- R116 to R121: the shift and what it keeps and discards, as integers. -/
def Obligations.RounderComputesTheseIntegers : Prop :=
  ∀ (sig : Significand) (k : Nat), k ≤ 53 →
    let r := rounder sig k
    r.totalShift = 60 + k ∧
    r.kept.toNat = sig.toNat / 2 ^ (60 + k) ∧
    r.roundBit.toNat = sig.toNat / 2 ^ (59 + k) % 2 ∧
    r.stickyBit.toNat = (if sig.toNat % 2 ^ (59 + k) = 0 then 0 else 1) ∧
    r.lsb.toNat = r.kept.toNat % 2 ∧
    r.truncatedMantissa.toNat = r.kept.toNat % 2 ^ 52

/-- R122: the rounding decision, as the rule and as its truth table. -/
def Obligations.RoundUpIsHalfToEven : Prop :=
  (∀ (sig : Significand) (k : Nat),
    (rounder sig k).roundUp = 1#1 ↔
      (rounder sig k).roundBit = 1#1 ∧ ((rounder sig k).stickyBit = 1#1 ∨ (rounder sig k).lsb = 1#1)) ∧
  roundUpOf 0 0 0 = 0 ∧ roundUpOf 0 0 1 = 0 ∧ roundUpOf 0 1 0 = 0 ∧ roundUpOf 0 1 1 = 0 ∧
  roundUpOf 1 0 0 = 0 ∧ roundUpOf 1 0 1 = 1 ∧ roundUpOf 1 1 0 = 1 ∧ roundUpOf 1 1 1 = 1

/-- R123: the increment, one bit wider than the field, its carry and its field; the carry occurs exactly
when an all-ones field is rounded up, and then the field is zero. -/
def Obligations.CarryOnlyFromAllOnesField : Prop :=
  ∀ (sig : Significand) (k : Nat),
    let r := rounder sig k
    r.mantInc.toNat = r.truncatedMantissa.toNat + r.roundUp.toNat ∧
    r.carry.toNat = r.mantInc.toNat / 2 ^ 52 ∧ r.mantField.toNat = r.mantInc.toNat % 2 ^ 52 ∧
    (r.carry = 1#1 ↔ r.truncatedMantissa.toNat = 2 ^ 52 - 1 ∧ r.roundUp = 1#1) ∧
    (r.carry = 1#1 → r.mantField = 0)

/-- R124: one rounding at the final position: what is kept plus the increment is the whole significand
divided by 2^totalShift and rounded half to even. -/
def Obligations.RounderRoundsOnceToNearestEven : Prop :=
  ∀ (sig : Significand) (k : Nat),
    (rounder sig k).kept.toNat + (rounder sig k).roundUp.toNat = roundShift sig.toNat (60 + k)

/-- R125: shifts of the whole significand and beyond, for any significand: the mathematical shift. R126:
what the rounder gives for a Normal at extra shifts 52, 53 and beyond. -/
def Obligations.RounderAtTheBottomOfTheRange : Prop :=
  (∀ sig : Significand,
    ((rounder sig 53).totalShift = 113 ∧ (rounder sig 53).kept = 0 ∧
      (rounder sig 53).roundBit.toNat = sig.toNat / 2 ^ 112 ∧
      ((rounder sig 53).stickyBit = 1 ↔ sig.toNat % 2 ^ 112 ≠ 0)) ∧
    (∀ k, 54 ≤ k → (rounder sig k).kept = 0 ∧ (rounder sig k).roundBit = 0 ∧
      (rounder sig k).roundUp = 0 ∧ (rounder sig k).mantField = 0)) ∧
  (∀ m : SrcMant,
    let r := fun k => rounder (significand .normal m) k
    ((r 52).kept = 1 ∧ (r 52).lsb = 1 ∧ (r 52).roundBit.toNat = m.toNat / 2 ^ 111 ∧
      ((r 52).stickyBit = 1 ↔ m.toNat % 2 ^ 111 ≠ 0) ∧
      (r 52).mantField.toNat = 1 + m.toNat / 2 ^ 111) ∧
    ((r 53).kept = 0 ∧ (r 53).roundBit = 1 ∧ (r 53).lsb = 0 ∧ ((r 53).stickyBit = 1 ↔ m ≠ 0) ∧
      ((r 53).roundUp = 1 ↔ m ≠ 0) ∧ (r 53).mantField = (if m = 0 then 0 else 1)))

/-- R127: nothing is discarded exactly when round and sticky bits are 0, and then nothing is added. -/
def Obligations.NothingDiscardedMeansExact : Prop :=
  ∀ (sig : Significand) (k : Nat),
    (((rounder sig k).roundBit = 0#1 ∧ (rounder sig k).stickyBit = 0#1) ↔
      sig.toNat % 2 ^ (60 + k) = 0) ∧
    (sig.toNat % 2 ^ (60 + k) = 0 →
      (rounder sig k).roundUp = 0#1 ∧ (rounder sig k).kept.toNat * 2 ^ (60 + k) = sig.toNat)

/-- R85: where the rounder runs, the result is one 63-bit addition under the sign. -/
def Obligations.OneAdderGivesTheResult : Prop :=
  ∀ (src : Quad) (a : StageA) (e0 : DstExp) (r : Rounded) (b : StageB),
    (srcClass src = .normal ∨ srcClass src = .subnormal) →
    engine Config.flushLimit (decompose src) = .rounded a e0 r b →
    let t := e0.toNat * 2 ^ 52 + r.truncatedMantissa.toNat + r.roundUp.toNat
    t ≤ 2047 * 2 ^ 52 ∧ narrow src = srcSign src ++ BitVec.ofNat 63 t ∧
    (b.overflowPost = true ↔ t = 0x7FF0000000000000)

/-! ## The laws of the operation -/

/-- R151, R136: the sign is the source's, for every operand. -/
def Obligations.SignIsPreserved : Prop :=
  ∀ s t : State, step s = .next t → t.dst.getLsbD 63 = s.src.getLsbD 127

/-- R152: infinities, NaNs and zeros. -/
def Obligations.SpecialValuesMapToSpecialValues : Prop :=
  narrow 0x7FFF0000000000000000000000000000#128 = 0x7FF0000000000000#64 ∧
  narrow 0xFFFF0000000000000000000000000000#128 = 0xFFF0000000000000#64 ∧
  narrow 0x00000000000000000000000000000000#128 = 0x0000000000000000#64 ∧
  narrow 0x80000000000000000000000000000000#128 = 0x8000000000000000#64 ∧
  (∀ src : Quad, srcClass src = .nan →
    dstClass (narrow src) = .nan ∧ (narrow src).getLsbD 51 = true)

/-- R157: 1.0 gives the textbook pattern. -/
def Obligations.OneIsTheTextbookPattern : Prop :=
  ∀ old : Double, step ⟨0x3FFF0000000000000000000000000000#128, old⟩
    = .next ⟨0x3FFF0000000000000000000000000000#128, 0x3FF0000000000000#64⟩

/-- R158: negating the operand negates the result and changes nothing else, NaNs included. -/
def Obligations.NegationCommutesWithNarrowing : Prop :=
  ∀ src : Quad, narrow (neg128 src) = neg64 (narrow src)

/-- R153: a source value that is a destination value of the same sign is returned exactly; a Normal source
is one exactly under the conditions on its exponent and low bits. -/
def Obligations.RepresentableValuesAreExact : Prop :=
  (∀ (src : Quad) (d : Double),
    FpClass.isFinite (srcClass src) = true → FpClass.isFinite (dstClass d) = true →
    dstValue d = srcValue src → d.getLsbD 63 = src.getLsbD 127 → narrow src = d) ∧
  (∀ src : Quad, srcClass src = .normal →
    ((∃ d : Double, FpClass.isFinite (dstClass d) = true ∧ dstValue d = srcValue src ∧
        d.getLsbD 63 = src.getLsbD 127) ↔
      let te := trueExponent .normal (srcExponent src)
      (-1022 ≤ te ∧ te ≤ 1023 ∧ (srcMantissa src).toNat % 2 ^ 60 = 0) ∨
      (-1074 ≤ te ∧ te ≤ -1023 ∧
        (significand .normal (srcMantissa src)).toNat
          % 2 ^ totalShift (extraShift (destExponent .normal (srcExponent src))) = 0)))

/-- R154: the correctness statement of the block. The map g from codes to values is strictly increasing;
the result is infinity from half an ulp above the largest finite double, and otherwise the nearest
destination value, the even code of two; and the rule's two concrete ties. -/
def Obligations.NarrowIsCorrectlyRounded : Prop :=
  (∀ m n : Nat, m < n → n ≤ maxFiniteCode → codeValue m < codeValue n) ∧
  (∀ src : Quad, FpClass.isFinite (srcClass src) = true →
    ((2 : ℚ) ^ 1024 - 2 ^ 970 ≤ srcMagnitude src →
      narrow src = srcSign src ++ 0x7FF#11 ++ 0#52) ∧
    (srcMagnitude src < (2 : ℚ) ^ 1024 - 2 ^ 970 →
      NearestEven (srcMagnitude src) (dstCode (narrow src)))) ∧
  narrow 0x3FFF0000000000000800000000000000#128 = 0x3FF0000000000000#64 ∧
  narrow 0x3FFF0000000000001800000000000000#128 = 0x3FF0000000000002#64

/-- R155: a finite source gives infinity exactly from this exponent and mantissa on, which is exactly
from this value on. -/
def Obligations.OverflowBoundary : Prop :=
  ∀ src : Quad, FpClass.isFinite (srcClass src) = true →
    (narrow src = srcSign src ++ 0x7FF#11 ++ 0#52 ↔
      0x43FF ≤ (srcExponent src).toNat ∨
      ((srcExponent src).toNat = 0x43FE ∧ (srcMantissa src).toNat / 2 ^ 59 = 2 ^ 53 - 1)) ∧
    (narrow src = srcSign src ++ 0x7FF#11 ++ 0#52 ↔ (2 : ℚ) ^ 1024 - 2 ^ 970 ≤ srcMagnitude src)

/-- R156: signed zero up to 2^-1075, the smallest subnormal strictly between that and 2^-1074, a subnormal
or the smallest normal from there up to the normal floor, by the single shift and rounding; and the same
three bands by the unbiased exponent. -/
def Obligations.UnderflowBoundary : Prop :=
  ∀ src : Quad, FpClass.isFinite (srcClass src) = true →
    let v := srcMagnitude src
    let e := trueExponent (srcClass src) (srcExponent src)
    (v ≤ (2 : ℚ) ^ (-1075 : Int) → narrow src = srcSign src ++ 0#11 ++ 0#52) ∧
    ((2 : ℚ) ^ (-1075 : Int) < v → v < (2 : ℚ) ^ (-1074 : Int) →
      narrow src = srcSign src ++ 0#11 ++ 1#52) ∧
    ((2 : ℚ) ^ (-1074 : Int) ≤ v → v < (2 : ℚ) ^ (-1022 : Int) →
      (dstClass (narrow src) = .subnormal ∨ narrow src = srcSign src ++ 1#11 ++ 0#52) ∧
      dstCode (narrow src)
        = roundShift (2 ^ 112 + (srcMantissa src).toNat) (60 + (15361 - (srcExponent src).toNat))) ∧
    (srcClass src ≠ .zero →
      (v ≤ (2 : ℚ) ^ (-1075 : Int) ↔ e ≤ -1076 ∨ (e = -1075 ∧ srcMantissa src = 0)) ∧
      ((2 : ℚ) ^ (-1075 : Int) < v ∧ v < (2 : ℚ) ^ (-1074 : Int) ↔ e = -1075 ∧ srcMantissa src ≠ 0) ∧
      ((2 : ℚ) ^ (-1074 : Int) ≤ v ∧ v < (2 : ℚ) ^ (-1022 : Int) ↔ -1074 ≤ e ∧ e ≤ -1023))

/-- R159: on operands of one sign that are no NaN, the magnitude code of the result never decreases. -/
def Obligations.NarrowingIsMonotone : Prop :=
  ∀ a b : Quad, srcClass a ≠ .nan → srcClass b ≠ .nan → srcSign a = srcSign b →
    srcCode a ≤ srcCode b → dstCode (narrow a) ≤ dstCode (narrow b)

/-- R144, R162: the results are exactly the words that are no NaN with bit 51 clear, and the operation is
not injective. -/
def Obligations.ResultsAreExactlyTheProducibleWords : Prop :=
  (∀ d : Double, (∃ src : Quad, narrow src = d) ↔ Producible d) ∧
  (∃ a b : Quad, a ≠ b ∧ narrow a = narrow b)

/-- R106, R126: any flush limit from 53 up gives the same operation: the flush changes no value. -/
def Obligations.FlushIsAShortcutFromFiftyThree : Prop :=
  ∀ (limit : Nat) (src : Quad), 53 ≤ limit → narrowWith limit src = narrow src

/-- Conflict C3, R11: the other reading, a flush limit of 52, differs for exactly the operands with
E = 0x3BCC and a nonzero mantissa field, where it gives zero. -/
def Obligations.FlushLimitFiftyTwoDiffersInOneBand : Prop :=
  ∀ src : Quad,
    (narrowWith 52 src ≠ narrow src ↔
      (srcExponent src).toNat = 0x3BCC ∧ (srcMantissa src).toNat ≠ 0) ∧
    ((srcExponent src).toNat = 0x3BCC → narrowWith 52 src = srcSign src ++ 0#11 ++ 0#52)

/-! ## The machine as a whole -/

/-- R150, R171: every state has a step, its one outcome is a next state, and in it `dst` is the operation's
result on the operand presented. -/
def Obligations.EveryStateStepsToItsResult : Prop :=
  ∀ s : State, step s = .next ⟨s.src, narrow s.src⟩

/-- R160 and the frame of every instruction: it writes `dst` and nothing else, and what it writes depends
on nothing that was in the state. -/
def Obligations.EveryInstructionDrivesOnlyItsResult : Prop :=
  ∀ i : Instr, ∃ d : Double, ∀ s : State, exec i s = .next ⟨s.src, d⟩

/-- R45: an evaluation is idempotent. -/
def Obligations.EvaluationIsIdempotent : Prop :=
  ∀ s t : State, step s = .next t → step t = .next t

/-- R33, R194: every step ends with `dst = NARROW(src)`, from any pair of port values, settled or not. -/
def Obligations.EveryStepSettlesTheBlock : Prop :=
  ∀ s t : State, step s = .next t → Settled t ∧ t.src = s.src

/-- R144 as an invariant: whatever the port showed, after a step it shows a word the packer can produce,
and the sign bit of its operand. -/
def Obligations.EveryStepShowsAProducibleWord : Prop :=
  ∀ s t : State, step s = .next t → Producible t.dst ∧ dstSignOf t.dst = srcSign t.src

/-- R33: the state after reset is settled. The operand it is settled on is the model's choice (log 1). -/
def Obligations.ResetIsSettled : Prop :=
  Settled State.reset ∧ State.reset = ⟨0#128, 0#64⟩ ∧ Sys2Proof.core.reset = State.reset

/-- R194: a sequence of evaluations ends in a next state, its result is the list of the results of its
operands in their order, and the block ends settled on the last operand. -/
def Obligations.SequenceGivesEachOperandItsResult : Prop :=
  ∀ (xs : List Quad) (s : State),
    ∃ t : State, runEvaluations xs s = .next (t, xs.map narrow) ∧
      t = (match xs.getLast? with | none => s | some x => ⟨x, narrow x⟩)

/-- R47, R181: evaluations on any number of blocks, in any interleaving, give each operand its own result,
and a block that is given nothing keeps its ports. Simultaneous evaluations are modelled as whole ones in
some order (DEDUCED from R47 and R49: log 11). -/
def Obligations.BlocksNeverCommunicate : Prop :=
  ∀ (n : Nat) (schedule : List (Fin n × Quad)) (bank : Vector State n),
    ∃ bank' : Vector State n,
      runBank schedule bank = .next (bank', schedule.map fun (b, x) => (b, narrow x)) ∧
      ∀ b : Fin n,
        bank'.get b =
          (match ((schedule.filter fun e => e.1 = b).getLast?) with
            | none => bank.get b
            | some (_, x) => ⟨x, narrow x⟩)

/-- R47 (c): any order of the same evaluations gives the same pairs of operand and result. -/
def Obligations.OrderOfEvaluationsDoesNotMatter : Prop :=
  ∀ (xs ys : List Quad) (s s' : State), xs.Perm ys →
    ∃ t t' rs rs', runEvaluations xs s = .next (t, rs) ∧ runEvaluations ys s' = .next (t', rs') ∧
      (xs.zip rs).Perm (ys.zip rs')

/-- R6, R7: the two descriptors; R8: the precisions; R9: the derived constants. -/
def Obligations.DerivedConstantsHaveTheirValues : Prop :=
  Config.srcFormat = ⟨128, 112, 15, 16383⟩ ∧ Config.dstFormat = ⟨64, 52, 11, 1023⟩ ∧
  Config.srcPrec = 113 ∧ Config.dstPrec = 53 ∧
  Config.srcExpOnes = 32767 ∧ Config.dstExpOnes = 2047 ∧ Config.dstExpMaxFinite = 2046 ∧
  Config.truncShift = 60 ∧ Config.expDelta = 15360 ∧ Config.dstInf = 0x7FF0000000000000#64 ∧
  Config.dstQuiet = 0x0008000000000000#52 ∧ Config.dstSign = 0x8000000000000000#64 ∧
  Config.dstSigMask = 0x000FFFFFFFFFFFFF ∧
  Config.srcSigMask = 0x0000FFFFFFFFFFFFFFFFFFFFFFFFFFFF ∧
  Config.srcImplicit = 0x00010000000000000000000000000000 ∧ Config.dstEmax = 1023 ∧
  Config.dstEmin = -1022 ∧ Config.dstSubfloor = -1074 ∧ Config.eOvf = 0x43FF ∧
  Config.eUnder = 0x3C00 ∧ Config.eFlush = 0x3BCB

/-- R33, R186, R190: `dst = NARROW(src)` at all times. Reset has it; presenting an operand gives it at once,
whatever the ports carried, and so does a table word; a step on a settled block adds nothing; and a
well-formed instruction whose operand stands on the port keeps it (log 3). -/
def Obligations.DstIsTheResultAtAllTimes : Prop :=
  Settled State.reset ∧
  (∀ (s : State) (x : Quad), Settled (s.present x) ∧ (s.present x).src = x) ∧
  (∀ (s : State) (nbits w : Nat), Settled (s.withFetchWord nbits w)) ∧
  (∀ s : State, Settled s → step s = .next s) ∧
  (∀ (i : Instr) (s : State), i.wellFormed = true → encode i = s.src →
    ∃ t : State, exec i s = .next t ∧ t.src = s.src ∧ Settled t)
end

