-- ==== Sys2Proof/Laws/Fields.lean ====
section
/-! SUPPORT. The fields of source and destination words as integers, and words put together from fields.
Later proofs cite these and never unfold a slice or a concatenation. -/

namespace Sys2Proof

/-- Concatenation as arithmetic. -/
theorem toNat_append_eq {a b : Nat} (x : BitVec a) (y : BitVec b) :
    (x ++ y).toNat = x.toNat * 2 ^ b + y.toNat := by
  rw [BitVec.toNat_append, ← Nat.shiftLeft_add_eq_or_of_lt y.isLt, Nat.shiftLeft_eq]

theorem srcSign_toNat (w : Quad) : (srcSign w).toNat = w.toNat / 2 ^ 127 := by
  have h := w.isLt
  rw [srcSign, BitVec.extractLsb'_toNat, Nat.shiftRight_eq_div_pow]
  omega

theorem srcExponent_toNat (w : Quad) : (srcExponent w).toNat = w.toNat / 2 ^ 112 % 2 ^ 15 := by
  rw [srcExponent, BitVec.extractLsb'_toNat, Nat.shiftRight_eq_div_pow]

theorem srcMantissa_toNat (w : Quad) : (srcMantissa w).toNat = w.toNat % 2 ^ 112 := by
  rw [srcMantissa, BitVec.extractLsb'_toNat, Nat.shiftRight_zero]

theorem srcWord_toNat (s : Bit) (e : SrcExp) (m : SrcMant) :
    (srcWord s e m).toNat = s.toNat * 2 ^ 127 + e.toNat * 2 ^ 112 + m.toNat := by
  rw [srcWord, toNat_append_eq, toNat_append_eq]
  omega

@[simp] theorem srcSign_srcWord (s : Bit) (e : SrcExp) (m : SrcMant) :
    srcSign (srcWord s e m) = s := by
  have h := s.isLt
  have h' := e.isLt
  have h'' := m.isLt
  apply BitVec.eq_of_toNat_eq
  rw [srcSign_toNat, srcWord_toNat]
  omega

@[simp] theorem srcExponent_srcWord (s : Bit) (e : SrcExp) (m : SrcMant) :
    srcExponent (srcWord s e m) = e := by
  have h := s.isLt
  have h' := e.isLt
  have h'' := m.isLt
  apply BitVec.eq_of_toNat_eq
  rw [srcExponent_toNat, srcWord_toNat]
  omega

@[simp] theorem srcMantissa_srcWord (s : Bit) (e : SrcExp) (m : SrcMant) :
    srcMantissa (srcWord s e m) = m := by
  have h := s.isLt
  have h' := e.isLt
  have h'' := m.isLt
  apply BitVec.eq_of_toNat_eq
  rw [srcMantissa_toNat, srcWord_toNat]
  omega

/-- Two source words with equal fields are equal. -/
theorem quad_ext {a b : Quad} (hs : srcSign a = srcSign b) (he : srcExponent a = srcExponent b)
    (hm : srcMantissa a = srcMantissa b) : a = b := by
  have hs' := congrArg BitVec.toNat hs
  have he' := congrArg BitVec.toNat he
  have hm' := congrArg BitVec.toNat hm
  have ha := a.isLt
  have hb := b.isLt
  rw [srcSign_toNat, srcSign_toNat] at hs'
  rw [srcExponent_toNat, srcExponent_toNat] at he'
  rw [srcMantissa_toNat, srcMantissa_toNat] at hm'
  apply BitVec.eq_of_toNat_eq
  omega

namespace Machine

theorem dstWord_toNat (s : Bit) (e : DstExp) (m : DstMant) :
    (dstWord s e m).toNat = s.toNat * 2 ^ 63 + e.toNat * 2 ^ 52 + m.toNat := by
  rw [dstWord, toNat_append_eq, toNat_append_eq]
  omega

theorem dstSignOf_toNat (w : Double) : (dstSignOf w).toNat = w.toNat / 2 ^ 63 := by
  have h := w.isLt
  rw [dstSignOf, BitVec.extractLsb'_toNat, Nat.shiftRight_eq_div_pow]
  omega

theorem dstExponent_toNat (w : Double) : (dstExponent w).toNat = w.toNat / 2 ^ 52 % 2 ^ 11 := by
  rw [dstExponent, BitVec.extractLsb'_toNat, Nat.shiftRight_eq_div_pow]

theorem dstMantissa_toNat (w : Double) : (dstMantissa w).toNat = w.toNat % 2 ^ 52 := by
  rw [dstMantissa, BitVec.extractLsb'_toNat, Nat.shiftRight_zero]

theorem dstCode_eq (w : Double) : dstCode w = w.toNat % 2 ^ 63 := by
  rw [dstCode, BitVec.extractLsb'_toNat, Nat.shiftRight_zero]

theorem srcCode_eq (w : Quad) : srcCode w = w.toNat % 2 ^ 127 := by
  rw [srcCode, BitVec.extractLsb'_toNat, Nat.shiftRight_zero]

/-- A destination word by its sign and its magnitude code. -/
theorem signCode_toNat (s : Bit) (n : Nat) (h : n < 2 ^ 63) :
    (s ++ BitVec.ofNat 63 n : BitVec 64).toNat = s.toNat * 2 ^ 63 + n := by
  rw [toNat_append_eq, BitVec.toNat_ofNat, Nat.mod_eq_of_lt h]

theorem dstCode_signCode (s : Bit) (n : Nat) (h : n < 2 ^ 63) :
    dstCode (s ++ BitVec.ofNat 63 n : BitVec 64) = n := by
  rw [dstCode_eq, signCode_toNat s n h]
  omega

theorem dstWord_eq_signCode (s : Bit) (e : DstExp) (m : DstMant) :
    dstWord s e m = (s ++ BitVec.ofNat 63 (e.toNat * 2 ^ 52 + m.toNat) : BitVec 64) := by
  have he := e.isLt
  have hm := m.isLt
  apply BitVec.eq_of_toNat_eq
  rw [dstWord_toNat, signCode_toNat _ _ (by omega)]
  omega

end Machine

end Sys2Proof
end

