-- ==== Sys2Proof/Laws/Rebias.lean ====
section
/-! SUPPORT. The exponent half as integers: what each function of `exponent_rebias_detector` answers
(spec/42_exponent_rebias_detector.md). -/

namespace Sys2Proof

@[simp] theorem Config.srcExpOnes_eq : Config.srcExpOnes = 32767 := by decide
@[simp] theorem Config.dstExpOnes_eq : Config.dstExpOnes = 2047 := by decide
@[simp] theorem Config.srcBias_eq : Config.srcBias = 16383 := rfl
@[simp] theorem Config.dstBias_eq : Config.dstBias = 1023 := rfl
@[simp] theorem Config.truncShift_eq : Config.truncShift = 60 := by decide
@[simp] theorem Config.flushLimit_eq : Config.flushLimit = 53 := rfl
@[simp] theorem Config.eOvf_eq : Config.eOvf = 17407 := by decide
@[simp] theorem Config.eUnder_eq : Config.eUnder = 15360 := by decide
@[simp] theorem Config.eFlush_eq : Config.eFlush = 15307 := by decide

namespace Machine

theorem classify_normal {e : SrcExp} {m : SrcMant} (h0 : e.toNat ≠ 0) (h1 : e.toNat ≠ 32767) :
    classify e m = .normal := by
  simp [classify, h0, h1]

theorem classify_zero_exp {e : SrcExp} {m : SrcMant} (h0 : e.toNat = 0) :
    classify e m = if m = 0 then .zero else .subnormal := by
  simp [classify, h0]

theorem classify_ones_exp {e : SrcExp} {m : SrcMant} (h1 : e.toNat = 32767) :
    classify e m = if m = 0 then .infinity else .nan := by
  simp [classify, h1]

/-- Every class in terms of the two fields, once. -/
theorem classify_cases (e : SrcExp) (m : SrcMant) :
    (e.toNat = 0 ∧ m = 0 ∧ classify e m = .zero) ∨
    (e.toNat = 0 ∧ m ≠ 0 ∧ classify e m = .subnormal) ∨
    (e.toNat = 32767 ∧ m = 0 ∧ classify e m = .infinity) ∨
    (e.toNat = 32767 ∧ m ≠ 0 ∧ classify e m = .nan) ∨
    (e.toNat ≠ 0 ∧ e.toNat ≠ 32767 ∧ classify e m = .normal) := by
  by_cases h0 : e.toNat = 0
  · by_cases hm : m = 0
    · exact .inl ⟨h0, hm, by rw [classify_zero_exp h0, if_pos hm]⟩
    · exact .inr (.inl ⟨h0, hm, by rw [classify_zero_exp h0, if_neg hm]⟩)
  · by_cases h1 : e.toNat = 32767
    · by_cases hm : m = 0
      · exact .inr (.inr (.inl ⟨h1, hm, by rw [classify_ones_exp h1, if_pos hm]⟩))
      · exact .inr (.inr (.inr (.inl ⟨h1, hm, by rw [classify_ones_exp h1, if_neg hm]⟩)))
    · exact .inr (.inr (.inr (.inr ⟨h0, h1, classify_normal h0 h1⟩)))

theorem significand_toNat (c : FpClass) (m : SrcMant) :
    (significand c m).toNat = (if c = .normal then 2 ^ 112 else 0) + m.toNat := by
  rw [significand, toNat_append_eq, implicitBit]
  split <;> simp

theorem destExponent_normal (e : SrcExp) : destExponent .normal e = (e.toNat : Int) - 15360 := by
  simp [destExponent, trueExponent]
  omega

theorem destExponent_of_ne_normal {c : FpClass} (h : c ≠ .normal) (e : SrcExp) :
    destExponent c e = -15359 := by
  simp [destExponent, trueExponent, h]

theorem overflowPre_eq (d : Int) : overflowPre d = decide (2047 ≤ d) := by
  simp [overflowPre]

theorem extraShift_of_nonpos {d : Int} (h : d ≤ 0) : extraShift d = (1 - d).toNat := by
  simp [extraShift, under, h]

theorem extraShift_of_pos {d : Int} (h : 0 < d) : extraShift d = 0 := by
  have : ¬ d ≤ 0 := by omega
  simp [extraShift, under, this]

theorem expField0_of_nonpos {d : Int} (h : d ≤ 0) : expField0 d = 0 := by
  simp [expField0, under, h]

theorem expField0_toNat_of_pos {d : Int} (h : 0 < d) (h' : d < 2047) :
    (expField0 d).toNat = d.toNat := by
  have : ¬ d ≤ 0 := by omega
  simp [expField0, under, this, BitVec.toNat_ofInt]
  omega

theorem flush_eq (limit : Nat) (u : Bool) (k : Nat) :
    flush limit u k = (u && decide (limit < k)) := rfl

theorem expField1_toNat (e0 : DstExp) (carry : Bit) :
    (expField1 e0 carry).toNat = e0.toNat + carry.toNat := by
  have h := e0.isLt
  have h' := carry.isLt
  simp only [expField1, BitVec.toNat_add, BitVec.toNat_setWidth]
  omega

theorem overflowPost_eq (x : BitVec 12) : overflowPost x = decide (2047 ≤ x.toNat) := by
  simp [overflowPost]

end Machine

end Sys2Proof
end

