-- ==== Sys2Proof/Laws/Decode.lean ====
section
/-! SUPPORT. What the decoder can answer, once, and the bytes of a host's words
(spec/30_encoding.md R62, spec/20_memory.md R43). -/

namespace Sys2Proof

/-- Everything `decodeOperand` can answer, with the condition on E and M of each answer. -/
theorem decodeOperand_cases (src : Quad) :
    ((srcExponent src).toNat = 0 ∧ srcMantissa src = 0 ∧
      decodeOperand src = .narrowZero (srcSign src)) ∨
    ((srcExponent src).toNat = 0 ∧ srcMantissa src ≠ 0 ∧
      decodeOperand src = .narrowSubnSrc (srcSign src) (srcMantissa src)) ∨
    ((srcExponent src).toNat = 32767 ∧ srcMantissa src = 0 ∧
      decodeOperand src = .narrowInf (srcSign src)) ∨
    ((srcExponent src).toNat = 32767 ∧ srcMantissa src ≠ 0 ∧
      decodeOperand src = .narrowNan (srcSign src) (srcMantissa src)) ∨
    (17407 ≤ (srcExponent src).toNat ∧ (srcExponent src).toNat ≤ 32766 ∧
      decodeOperand src = .narrowOvf (srcSign src) (srcExponent src) (srcMantissa src)) ∨
    (15361 ≤ (srcExponent src).toNat ∧ (srcExponent src).toNat ≤ 17406 ∧
      decodeOperand src = .narrowNorm (srcSign src) (srcExponent src) (srcMantissa src)) ∨
    (15308 ≤ (srcExponent src).toNat ∧ (srcExponent src).toNat ≤ 15360 ∧
      decodeOperand src = .narrowSub (srcSign src) (srcExponent src) (srcMantissa src)) ∨
    (1 ≤ (srcExponent src).toNat ∧ (srcExponent src).toNat ≤ 15307 ∧
      decodeOperand src = .narrowFlush (srcSign src) (srcExponent src) (srcMantissa src)) := by
  have he := (srcExponent src).isLt
  have hdef : decodeOperand src =
      if (srcExponent src).toNat = 0 then
        if srcMantissa src = 0 then .narrowZero (srcSign src)
        else .narrowSubnSrc (srcSign src) (srcMantissa src)
      else if (srcExponent src).toNat = Config.srcExpOnes then
        if srcMantissa src = 0 then .narrowInf (srcSign src)
        else .narrowNan (srcSign src) (srcMantissa src)
      else if Config.eOvf ≤ (srcExponent src).toNat then
        .narrowOvf (srcSign src) (srcExponent src) (srcMantissa src)
      else if Config.eUnder < (srcExponent src).toNat then
        .narrowNorm (srcSign src) (srcExponent src) (srcMantissa src)
      else if Config.eFlush < (srcExponent src).toNat then
        .narrowSub (srcSign src) (srcExponent src) (srcMantissa src)
      else .narrowFlush (srcSign src) (srcExponent src) (srcMantissa src) := rfl
  simp only [Config.srcExpOnes_eq, Config.eOvf_eq, Config.eUnder_eq, Config.eFlush_eq] at hdef
  by_cases h0 : (srcExponent src).toNat = 0
  · by_cases hm : srcMantissa src = 0
    · exact .inl ⟨h0, hm, by rw [hdef, if_pos h0, if_pos hm]⟩
    · exact .inr (.inl ⟨h0, hm, by rw [hdef, if_pos h0, if_neg hm]⟩)
  rw [if_neg h0] at hdef
  by_cases h1 : (srcExponent src).toNat = 32767
  · by_cases hm : srcMantissa src = 0
    · exact .inr (.inr (.inl ⟨h1, hm, by rw [hdef, if_pos h1, if_pos hm]⟩))
    · exact .inr (.inr (.inr (.inl ⟨h1, hm, by rw [hdef, if_pos h1, if_neg hm]⟩)))
  rw [if_neg h1] at hdef
  by_cases h2 : 17407 ≤ (srcExponent src).toNat
  · exact .inr (.inr (.inr (.inr (.inl ⟨h2, by omega, by rw [hdef, if_pos h2]⟩))))
  rw [if_neg h2] at hdef
  by_cases h3 : 15360 < (srcExponent src).toNat
  · exact .inr (.inr (.inr (.inr (.inr (.inl ⟨by omega, by omega, by rw [hdef, if_pos h3]⟩)))))
  rw [if_neg h3] at hdef
  by_cases h4 : 15307 < (srcExponent src).toNat
  · exact .inr (.inr (.inr (.inr (.inr (.inr (.inl
      ⟨by omega, by omega, by rw [hdef, if_pos h4]⟩))))))
  · exact .inr (.inr (.inr (.inr (.inr (.inr (.inr
      ⟨by omega, by omega, by rw [hdef, if_neg h4]⟩))))))

@[simp] theorem littleBytes_length (n w : Nat) : (littleBytes n w).length = n := by
  induction n generalizing w with
  | zero => rfl
  | succ n ih => simp [littleBytes, ih]

/-- Reading back the bytes of a number gives its low bytes. -/
theorem littleNat_littleBytes (n w : Nat) : littleNat (littleBytes n w) = w % 256 ^ n := by
  induction n generalizing w with
  | zero => simp [littleBytes, littleNat, Nat.mod_one]
  | succ n ih =>
    rw [littleBytes, littleNat, ih, BitVec.toNat_ofNat, pow_succ' 256 n]
    exact (Nat.mod_mul).symm

/-- Byte j of a number holds its bits 8j+7 down to 8j. -/
theorem littleBytes_getElem? (n w j : Nat) (h : j < n) :
    (littleBytes n w)[j]? = some (BitVec.ofNat 8 (w / 256 ^ j)) := by
  induction n generalizing w j with
  | zero => omega
  | succ n ih =>
    cases j with
    | zero => simp [littleBytes]
    | succ j =>
      rw [littleBytes, List.getElem?_cons_succ, ih _ _ (by omega), Nat.div_div_eq_div_mul,
        pow_succ' 256 j]

end Sys2Proof
end

