-- ==== Sys2Proof/Laws/State.lean ====
section
/-! SUPPORT. One lemma per field of State and update of it, and what `complete` answers, so that no proof
unfolds a record update. -/

namespace Sys2Proof.Machine

@[simp] theorem State.present_src (s : State) (x : Quad) : (s.present x).src = x := rfl
@[simp] theorem State.present_dst (s : State) (x : Quad) : (s.present x).dst = narrow x := rfl
@[simp] theorem State.driveDst_src (s : State) (v : Double) : (s.driveDst v).src = s.src := rfl
@[simp] theorem State.driveDst_dst (s : State) (v : Double) : (s.driveDst v).dst = v := rfl

@[simp] theorem State.present_present (s : State) (x y : Quad) :
    (s.present x).present y = s.present y := rfl
@[simp] theorem State.driveDst_driveDst (s : State) (v w : Double) :
    (s.driveDst v).driveDst w = s.driveDst w := rfl
@[simp] theorem State.driveDst_present (s : State) (x : Quad) (v : Double) :
    (s.driveDst v).present x = s.present x := rfl

@[simp] theorem State.reset_src : State.reset.src = 0 := rfl
@[simp] theorem State.reset_dst : State.reset.dst = 0 := rfl

@[simp] theorem State.withFetchWord_src (s : State) (nbits w : Nat) :
    (s.withFetchWord nbits w).src = operandOfTableWord nbits w := rfl
@[simp] theorem State.withFetchWord_dst (s : State) (nbits w : Nat) :
    (s.withFetchWord nbits w).dst = narrow (operandOfTableWord nbits w) := rfl

/-- `complete` always answers a next state. -/
theorem complete_eq_next (v : Double) (s : State) : complete v s = .next (s.driveDst v) := rfl

/-- Everything `complete` can do: if it answers `next t`, only `dst` has changed, to `v`. -/
theorem complete_next_iff {v : Double} {s t : State} :
    complete v s = .next t ↔ t = s.driveDst v := by
  rw [complete_eq_next, Host.Outcome.next.injEq, eq_comm]

end Sys2Proof.Machine
end

