-- ==== Sys2Proof/Laws/Exec.lean ====
section
/-! SUPPORT. What exec and step can answer, said once: a next state that differs in `dst` alone. -/

namespace Sys2Proof.Machine

/-- If an instruction answers a next state, `src` stands and only `dst` may differ. -/
theorem exec_next_src {i : Instr} {s t : State} (h : exec i s = .next t) : t.src = s.src := by
  cases i <;> exact complete_next_iff.mp h ▸ rfl

theorem exec_ne_fault (i : Instr) (s : State) (r : Fault) : exec i s ≠ .fault r := nomatch r

theorem exec_ne_refused (i : Instr) (s : State) (r : Refusal) : exec i s ≠ .refused r := by
  cases i <;> exact fun h => Host.Outcome.noConfusion rfl rfl rfl (heq_of_eq h)

@[simp] theorem andThen_next {α β : Type} (a : α) (f : α → Host.Outcome β Fault Refusal) :
    andThen (.next a) f = f a := rfl

end Sys2Proof.Machine
end

