-- ==== Sys2Proof/Laws/Rounder.lean ====
section
/-! SUPPORT. The mantissa half as integers: what each function of `mantissa_rounder_shifter` answers
(spec/43_mantissa_rounder_shifter.md), and the arithmetic of one division rounded half to even. -/

namespace Sys2Proof.Machine

theorem bit_toNat_ofBool (b : Bool) : (BitVec.ofBool b).toNat = b.toNat := by
  cases b <;> rfl

theorem bitAt_toNat {n : Nat} (x : BitVec n) (i : Nat) :
    (bitAt x i).toNat = x.toNat / 2 ^ i % 2 := by
  rw [bitAt, bit_toNat_ofBool, BitVec.getLsbD, Nat.testBit_eq_decide_div_mod_eq]
  rcases Nat.mod_two_eq_zero_or_one (x.toNat / 2 ^ i) with h | h <;> simp [h]

theorem bit_eq_one_iff (b : Bit) : b = 1#1 ↔ b.toNat = 1 := by
  rw [← BitVec.toNat_inj]
  rfl

theorem bit_eq_zero_iff (b : Bit) : b = 0#1 ↔ b.toNat = 0 := by
  rw [← BitVec.toNat_inj]
  rfl

theorem lowBits_toNat {w : Nat} (x : BitVec w) (n : Nat) (h : n ≤ w) :
    (lowBits x n).toNat = x.toNat % 2 ^ n := by
  have hp : 0 < 2 ^ n := Nat.two_pow_pos n
  have hle : 2 ^ n ≤ 2 ^ w := Nat.pow_le_pow_right (by omega) h
  rw [lowBits, BitVec.toNat_and, BitVec.toNat_ofNat, Nat.mod_eq_of_lt (by omega),
    Nat.and_two_pow_sub_one_eq_mod]

/-- Bits beyond the width are no bits: then every bit is below bit n. -/
theorem lowBits_of_width_le {w : Nat} (x : BitVec w) (n : Nat) (h : w ≤ n) : lowBits x n = x := by
  apply BitVec.eq_of_toNat_eq
  rw [lowBits, BitVec.toNat_and, BitVec.toNat_ofNat]
  have : (2 ^ n - 1) % 2 ^ w = 2 ^ w - 1 := by
    obtain ⟨d, rfl⟩ := Nat.exists_eq_add_of_le h
    have hd : 0 < 2 ^ d := Nat.two_pow_pos d
    have hw : 0 < 2 ^ w := Nat.two_pow_pos w
    have : 2 ^ (w + d) - 1 = (2 ^ w - 1) + 2 ^ w * (2 ^ d - 1) := by
      rw [pow_add, Nat.mul_sub, mul_one]
      have : 2 ^ w ≤ 2 ^ w * 2 ^ d := Nat.le_mul_of_pos_right _ hd
      omega
    rw [this, Nat.add_mul_mod_self_left, Nat.mod_eq_of_lt (by omega)]
  rw [this, Nat.and_two_pow_sub_one_eq_mod, Nat.mod_eq_of_lt x.isLt]

theorem orReduce_toNat {n : Nat} (x : BitVec n) :
    (orReduce x).toNat = if x.toNat = 0 then 0 else 1 := by
  rw [orReduce, bit_toNat_ofBool]
  by_cases h : x = 0
  · simp [h]
  · have : x.toNat ≠ 0 := fun h' => h (BitVec.eq_of_toNat_eq (by simpa using h'))
    rw [if_neg this, (bne_iff_ne (a := x) (b := 0)).mpr h]
    rfl

theorem keptBits_toNat (sig : Significand) (shift : Nat) (h : 60 ≤ shift) :
    (keptBits sig shift).toNat = sig.toNat / 2 ^ shift := by
  have hs := sig.isLt
  rw [keptBits, BitVec.toNat_setWidth, BitVec.toNat_ushiftRight, Nat.shiftRight_eq_div_pow,
    Nat.mod_eq_of_lt]
  calc sig.toNat / 2 ^ shift ≤ sig.toNat / 2 ^ 60 :=
        Nat.div_le_div_left (Nat.pow_le_pow_right (by omega) h) (by positivity)
    _ < 2 ^ 53 := by omega

/-- The sticky bit says whether anything below the round bit was discarded, at every shift (R119,
R125). -/
theorem stickyBitOf_toNat (sig : Significand) (shift : Nat) :
    (stickyBitOf sig shift).toNat = if sig.toNat % 2 ^ (shift - 1) = 0 then 0 else 1 := by
  rw [stickyBitOf, orReduce_toNat]
  by_cases h : shift - 1 ≤ 113
  · rw [lowBits_toNat sig _ h]
  · have hlt : sig.toNat < 2 ^ (shift - 1) :=
      lt_of_lt_of_le sig.isLt (Nat.pow_le_pow_right (by omega) (by omega))
    rw [lowBits_of_width_le sig _ (by omega), Nat.mod_eq_of_lt hlt]

theorem roundUpOf_toNat (r s l : Bit) :
    (roundUpOf r s l).toNat = if r.toNat = 1 ∧ (s.toNat = 1 ∨ l.toNat = 1) then 1 else 0 := by
  revert r s l
  decide

theorem mantIncOf_toNat (t : DstMant) (up : Bit) :
    (mantIncOf t up).toNat = t.toNat + up.toNat := by
  have h := t.isLt
  have h' := up.isLt
  simp only [mantIncOf, BitVec.toNat_add, BitVec.toNat_setWidth]
  omega

theorem rounder_totalShift (sig : Significand) (k : Nat) : (rounder sig k).totalShift = 60 + k := by
  simp [rounder, totalShift]

theorem rounder_kept_toNat (sig : Significand) (k : Nat) :
    (rounder sig k).kept.toNat = sig.toNat / 2 ^ (60 + k) := by
  simpa [rounder, totalShift] using keptBits_toNat sig (60 + k) (by omega)

theorem rounder_roundBit_toNat (sig : Significand) (k : Nat) :
    (rounder sig k).roundBit.toNat = sig.toNat / 2 ^ (59 + k) % 2 := by
  have : 60 + k - 1 = 59 + k := by omega
  simpa [rounder, totalShift, roundBitOf, this] using bitAt_toNat sig (59 + k)

theorem rounder_stickyBit_toNat (sig : Significand) (k : Nat) :
    (rounder sig k).stickyBit.toNat = if sig.toNat % 2 ^ (59 + k) = 0 then 0 else 1 := by
  have : 60 + k - 1 = 59 + k := by omega
  simpa [rounder, totalShift, this] using stickyBitOf_toNat sig (60 + k)

theorem rounder_lsb_toNat (sig : Significand) (k : Nat) :
    (rounder sig k).lsb.toNat = (rounder sig k).kept.toNat % 2 := by
  simpa [rounder] using bitAt_toNat (rounder sig k).kept 0

theorem rounder_truncatedMantissa_toNat (sig : Significand) (k : Nat) :
    (rounder sig k).truncatedMantissa.toNat = (rounder sig k).kept.toNat % 2 ^ 52 := by
  simp only [rounder, truncatedMantissaOf, BitVec.extractLsb'_toNat, Nat.shiftRight_zero]

theorem rounder_mantInc_toNat (sig : Significand) (k : Nat) :
    (rounder sig k).mantInc.toNat
      = (rounder sig k).truncatedMantissa.toNat + (rounder sig k).roundUp.toNat :=
  mantIncOf_toNat _ _

theorem rounder_carry_toNat (sig : Significand) (k : Nat) :
    (rounder sig k).carry.toNat = (rounder sig k).mantInc.toNat / 2 ^ 52 := by
  have h := (rounder sig k).mantInc.isLt
  have := bitAt_toNat (rounder sig k).mantInc 52
  have h' : (rounder sig k).carry = bitAt (rounder sig k).mantInc 52 := rfl
  rw [h', this]
  omega

theorem rounder_mantField_toNat (sig : Significand) (k : Nat) :
    (rounder sig k).mantField.toNat = (rounder sig k).mantInc.toNat % 2 ^ 52 := by
  simp only [rounder, BitVec.extractLsb'_toNat, Nat.shiftRight_zero]

/-- The rounder's decision as a comparison of what is discarded with half (R122, R118, R119). -/
theorem rounder_roundUp_toNat (sig : Significand) (k : Nat) :
    (rounder sig k).roundUp.toNat =
      if 2 ^ (60 + k) < 2 * (sig.toNat % 2 ^ (60 + k)) ∨
        (2 * (sig.toNat % 2 ^ (60 + k)) = 2 ^ (60 + k) ∧ sig.toNat / 2 ^ (60 + k) % 2 = 1)
      then 1 else 0 := by
  have hdef : (rounder sig k).roundUp
      = roundUpOf (rounder sig k).roundBit (rounder sig k).stickyBit (rounder sig k).lsb := rfl
  rw [hdef, roundUpOf_toNat, rounder_roundBit_toNat, rounder_stickyBit_toNat, rounder_lsb_toNat,
    rounder_kept_toNat]
  have hp : 2 ^ (60 + k) = 2 * 2 ^ (59 + k) := by rw [← pow_succ']; congr 1; omega
  have hpos : 0 < 2 ^ (59 + k) := Nat.two_pow_pos _
  have hsplit : sig.toNat % 2 ^ (60 + k)
      = sig.toNat % 2 ^ (59 + k) + 2 ^ (59 + k) * (sig.toNat / 2 ^ (59 + k) % 2) := by
    rw [hp, mul_comm 2, Nat.mod_mul]
  have hlt : sig.toNat % 2 ^ (59 + k) < 2 ^ (59 + k) := Nat.mod_lt _ hpos
  rw [hsplit, hp]
  generalize 2 ^ (59 + k) = h at *
  generalize sig.toNat % h = r at *
  rcases Nat.mod_two_eq_zero_or_one (sig.toNat / h) with hb | hb
  · rw [hb]
    rw [if_neg (by simp), if_neg (by omega)]
  · rw [hb]
    by_cases hr : r = 0
    · subst hr
      by_cases hq : sig.toNat / (2 * h) % 2 = 1
      · rw [if_pos (by simp [hq]), if_pos (by right; exact ⟨by omega, hq⟩)]
      · rw [if_neg (by simp [hq]), if_neg (by omega)]
    · rw [if_pos (by simp [hr]), if_pos (by left; omega)]

/-- The field and the carry together are one number: nothing of the increment is lost (R123). -/
theorem rounder_carry_mantField (sig : Significand) (k : Nat) :
    (rounder sig k).carry.toNat * 2 ^ 52 + (rounder sig k).mantField.toNat
      = (rounder sig k).truncatedMantissa.toNat + (rounder sig k).roundUp.toNat := by
  rw [rounder_carry_toNat, rounder_mantField_toNat, rounder_mantInc_toNat]
  omega

end Sys2Proof.Machine
end

