-- ==== Sys2Proof/Laws/Packer.lean ====
section
/-! SUPPORT. The packer's words by sign and magnitude code, and the shared tail of every evaluation that
rounds (spec/44_ieee754_packer.md). -/

namespace Sys2Proof.Machine

theorem dstExpOnesField_toNat : dstExpOnesField.toNat = 2047 := by decide

theorem packZero_eq (s : Bit) : packZero s = (s ++ BitVec.ofNat 63 0 : BitVec 64) := by
  simp [packZero, dstWord_eq_signCode]

theorem packFlush_eq (s : Bit) : packFlush s = (s ++ BitVec.ofNat 63 0 : BitVec 64) := packZero_eq s

theorem packInfinity_eq (s : Bit) :
    packInfinity s = (s ++ BitVec.ofNat 63 0x7FF0000000000000 : BitVec 64) := by
  rw [packInfinity, dstWord_eq_signCode, dstExpOnesField_toNat]
  simp

theorem packOverflow_eq (s : Bit) :
    packOverflow s = (s ++ BitVec.ofNat 63 0x7FF0000000000000 : BitVec 64) := packInfinity_eq s

/-- Everything the rounder, stage B and the packer do after one another, as one addition: an overflow by
the carry is the same code (R85). -/
theorem roundAndPack_eq (s : Bit) (e0 : DstExp) (sig : Significand) (k : Nat) (h : e0.toNat ≤ 2046) :
    roundAndPack s e0 sig k =
      (s ++ BitVec.ofNat 63 (e0.toNat * 2 ^ 52 + (rounder sig k).truncatedMantissa.toNat
        + (rounder sig k).roundUp.toNat) : BitVec 64) := by
  have hsum := rounder_carry_mantField sig k
  have hc := (rounder sig k).carry.isLt
  have hm := (rounder sig k).mantField.isLt
  have ht := (rounder sig k).truncatedMantissa.isLt
  have hu := (rounder sig k).roundUp.isLt
  rw [roundAndPack, packRounded]
  have hE : (stageB e0 (rounder sig k).carry).expField1.toNat
      = e0.toNat + (rounder sig k).carry.toNat := expField1_toNat _ _
  have hO : (stageB e0 (rounder sig k).carry).overflowPost
      = decide (2047 ≤ e0.toNat + (rounder sig k).carry.toNat) := by
    simp only [stageB, overflowPost_eq, expField1_toNat]
  rw [hO]
  by_cases ho : 2047 ≤ e0.toNat + (rounder sig k).carry.toNat
  · rw [if_pos (by simpa using ho), packOverflow_eq]
    clear hE hO
    generalize (rounder sig k).carry.toNat = c at *
    generalize (rounder sig k).mantField.toNat = f at *
    generalize (rounder sig k).truncatedMantissa.toNat = t at *
    generalize (rounder sig k).roundUp.toNat = u at *
    obtain rfl : c = 1 := by omega
    rw [show e0.toNat = 2046 by omega, show 2046 * 2 ^ 52 + t + u = 0x7FF0000000000000 by omega]
  · rw [if_neg (by simpa using ho), packFinite, dstWord_eq_signCode, BitVec.extractLsb'_toNat,
      Nat.shiftRight_zero, hE]
    clear hE hO
    generalize (rounder sig k).carry.toNat = c at *
    generalize (rounder sig k).mantField.toNat = f at *
    generalize (rounder sig k).truncatedMantissa.toNat = t at *
    generalize (rounder sig k).roundUp.toNat = u at *
    rw [Nat.mod_eq_of_lt (by omega : e0.toNat + c < 2 ^ 11),
      show (e0.toNat + c) * 2 ^ 52 + f = e0.toNat * 2 ^ 52 + t + u by rw [add_mul, add_assoc, hsum, add_assoc]]

end Sys2Proof.Machine
end

