-- ==== Sys2Proof/Laws/Narrow.lean ====
section
/-! SUPPORT. What the operation answers for each class of operand and, on the Finite path, for each outcome
of the engine (spec/40_narrow_top.md R82, spec/44_ieee754_packer.md R135). -/

namespace Sys2Proof.Machine

variable {limit : Nat} {src : Quad}

theorem narrowWith_zero (h : classify (srcExponent src) (srcMantissa src) = .zero) :
    narrowWith limit src = packZero (srcSign src) := by
  simp [narrowWith, pack, decompose, h]

theorem narrowWith_infinity (h : classify (srcExponent src) (srcMantissa src) = .infinity) :
    narrowWith limit src = packInfinity (srcSign src) := by
  simp [narrowWith, pack, decompose, h]

theorem narrowWith_nan (h : classify (srcExponent src) (srcMantissa src) = .nan) :
    narrowWith limit src = packNan (srcSign src) (srcMantissa src) := by
  simp [narrowWith, pack, decompose, h]

/-- The engine's three outcomes (R112), from the rebiased exponent of the class and field. -/
theorem engine_cases (limit : Nat) (d : Decomposed) :
    (2047 ≤ destExponent d.cls d.exponentField ∧
      engine limit d = .overflowPre (stageA limit d)) ∨
    (destExponent d.cls d.exponentField < 2047 ∧
      flush limit (under (destExponent d.cls d.exponentField))
        (extraShift (destExponent d.cls d.exponentField)) = true ∧
      engine limit d
        = .flush (stageA limit d) (expField0 (destExponent d.cls d.exponentField))) ∨
    (destExponent d.cls d.exponentField < 2047 ∧
      flush limit (under (destExponent d.cls d.exponentField))
        (extraShift (destExponent d.cls d.exponentField)) = false ∧
      engine limit d
        = .rounded (stageA limit d) (expField0 (destExponent d.cls d.exponentField))
            (rounder (significand d.cls d.mantissaField)
              (extraShift (destExponent d.cls d.exponentField)))
            (stageB (expField0 (destExponent d.cls d.exponentField))
              (rounder (significand d.cls d.mantissaField)
                (extraShift (destExponent d.cls d.exponentField))).carry)) := by
  have hov : (stageA limit d).overflowPre
      = decide (2047 ≤ destExponent d.cls d.exponentField) := overflowPre_eq _
  by_cases h : 2047 ≤ destExponent d.cls d.exponentField
  · exact .inl ⟨h, by simp [engine, hov, h]⟩
  · have hlt : destExponent d.cls d.exponentField < 2047 := by omega
    cases hf : flush limit (under (destExponent d.cls d.exponentField))
        (extraShift (destExponent d.cls d.exponentField)) with
    | true =>
      refine .inr (.inl ⟨hlt, rfl, ?_⟩)
      simp only [engine, hov, decide_eq_false h, Bool.false_eq_true, if_false]
      simp only [stageA, hf, if_true]
    | false =>
      refine .inr (.inr ⟨hlt, rfl, ?_⟩)
      simp only [engine, hov, decide_eq_false h, Bool.false_eq_true, if_false]
      simp only [stageA, hf, Bool.false_eq_true, if_false]

/-- A source Subnormal gives signed zero at every flush limit below its extra shift (R111). -/
theorem narrowWith_subnormal (hl : limit < 15360)
    (h : classify (srcExponent src) (srcMantissa src) = .subnormal) :
    narrowWith limit src = packFlush (srcSign src) := by
  have hd : destExponent .subnormal (srcExponent src) = -15359 :=
    destExponent_of_ne_normal (by simp) _
  have hp : narrowWith limit src = packEngine (srcSign src) (engine limit (decompose src)) := by
    simp [narrowWith, pack, decompose, h]
  rw [hp]
  rcases engine_cases limit (decompose src) with ⟨h1, -⟩ | ⟨-, -, he⟩ | ⟨-, hf, -⟩
  · simp [decompose, h, hd] at h1
  · rw [he]; rfl
  · simp [decompose, h, hd, flush, under, extraShift] at hf
    omega

/-- A Normal that overflows before rounding (R103). -/
theorem narrowWith_overflow (h : classify (srcExponent src) (srcMantissa src) = .normal)
    (he : 17407 ≤ (srcExponent src).toNat) :
    narrowWith limit src = packOverflow (srcSign src) := by
  have hp : narrowWith limit src = packEngine (srcSign src) (engine limit (decompose src)) := by
    simp [narrowWith, pack, decompose, h]
  have hd : destExponent (decompose src).cls (decompose src).exponentField
      = ((srcExponent src).toNat : Int) - 15360 := by
    simp only [decompose, h, destExponent_normal]
  rw [hp]
  rcases engine_cases limit (decompose src) with ⟨-, hr⟩ | ⟨h1, -⟩ | ⟨h1, -⟩
  · rw [hr]; rfl
  · omega
  · omega

/-- A Normal that is flushed (R106). -/
theorem narrowWith_flush (h : classify (srcExponent src) (srcMantissa src) = .normal)
    (he : (srcExponent src).toNat + limit < 15361) :
    narrowWith limit src = packFlush (srcSign src) := by
  have hp : narrowWith limit src = packEngine (srcSign src) (engine limit (decompose src)) := by
    simp [narrowWith, pack, decompose, h]
  have hd : destExponent (decompose src).cls (decompose src).exponentField
      = ((srcExponent src).toNat : Int) - 15360 := by
    simp only [decompose, h, destExponent_normal]
  rw [hp]
  rcases engine_cases limit (decompose src) with ⟨h1, -⟩ | ⟨-, -, hr⟩ | ⟨-, hf, -⟩
  · omega
  · rw [hr]; rfl
  · rw [hd, extraShift_of_nonpos (by omega)] at hf
    simp [flush, under] at hf
    omega

/-- A Normal that is rounded (R112): the rounder, stage B and the packer. -/
theorem narrowWith_rounded (h : classify (srcExponent src) (srcMantissa src) = .normal)
    (he : 15361 ≤ (srcExponent src).toNat + limit) (he' : (srcExponent src).toNat ≤ 17406) :
    narrowWith limit src = roundAndPack (srcSign src)
      (expField0 (destExponent .normal (srcExponent src)))
      (significand .normal (srcMantissa src))
      (extraShift (destExponent .normal (srcExponent src))) := by
  have hp : narrowWith limit src = packEngine (srcSign src) (engine limit (decompose src)) := by
    simp [narrowWith, pack, decompose, h]
  have hc : (decompose src).cls = .normal := h
  have hd : destExponent (decompose src).cls (decompose src).exponentField
      = ((srcExponent src).toNat : Int) - 15360 := by
    simp only [decompose, h, destExponent_normal]
  rw [hp]
  rcases engine_cases limit (decompose src) with ⟨h1, -⟩ | ⟨-, hf, -⟩ | ⟨-, -, hr⟩
  · omega
  · rw [hd] at hf
    by_cases hu : ((srcExponent src).toNat : Int) - 15360 ≤ 0
    · rw [extraShift_of_nonpos hu] at hf
      simp [flush, under] at hf
      omega
    · simp [flush, under, hu] at hf
  · rw [hr, hc]
    rfl

end Sys2Proof.Machine
end

