-- ==== Sys2Proof/Laws/PerInstr.lean ====
section
/-! SUPPORT. For every instruction, as syntax: its encoding carries its fields at the places of R56. One
lemma per constructor. -/

namespace Sys2Proof.Laws.EncodingHoldsFields

/-- The sign, exponent and mantissa fields that an instruction's operand word has (R56, R62). -/
def Statement : Instr → Prop
  | .narrow src => encode (.narrow src) = srcWord (srcSign src) (srcExponent src) (srcMantissa src)
  | .narrowZero s =>
    srcSign (encode (.narrowZero s)) = s ∧ srcExponent (encode (.narrowZero s)) = 0 ∧
      srcMantissa (encode (.narrowZero s)) = 0
  | .narrowInf s =>
    srcSign (encode (.narrowInf s)) = s ∧ srcExponent (encode (.narrowInf s)) = 0x7FFF#15 ∧
      srcMantissa (encode (.narrowInf s)) = 0
  | .narrowNan s m =>
    srcSign (encode (.narrowNan s m)) = s ∧ srcExponent (encode (.narrowNan s m)) = 0x7FFF#15 ∧
      srcMantissa (encode (.narrowNan s m)) = m
  | .narrowSubnSrc s m =>
    srcSign (encode (.narrowSubnSrc s m)) = s ∧ srcExponent (encode (.narrowSubnSrc s m)) = 0 ∧
      srcMantissa (encode (.narrowSubnSrc s m)) = m
  | .narrowOvf s e m =>
    srcSign (encode (.narrowOvf s e m)) = s ∧ srcExponent (encode (.narrowOvf s e m)) = e ∧
      srcMantissa (encode (.narrowOvf s e m)) = m
  | .narrowNorm s e m =>
    srcSign (encode (.narrowNorm s e m)) = s ∧ srcExponent (encode (.narrowNorm s e m)) = e ∧
      srcMantissa (encode (.narrowNorm s e m)) = m
  | .narrowSub s e m =>
    srcSign (encode (.narrowSub s e m)) = s ∧ srcExponent (encode (.narrowSub s e m)) = e ∧
      srcMantissa (encode (.narrowSub s e m)) = m
  | .narrowFlush s e m =>
    srcSign (encode (.narrowFlush s e m)) = s ∧ srcExponent (encode (.narrowFlush s e m)) = e ∧
      srcMantissa (encode (.narrowFlush s e m)) = m

theorem narrow (src : Quad) : Statement (.narrow src) :=
  (quad_ext (srcSign_srcWord _ _ _) (srcExponent_srcWord _ _ _) (srcMantissa_srcWord _ _ _)).symm

theorem narrowZero (s : Bit) : Statement (.narrowZero s) :=
  ⟨srcSign_srcWord _ _ _, srcExponent_srcWord _ _ _, srcMantissa_srcWord _ _ _⟩

theorem narrowInf (s : Bit) : Statement (.narrowInf s) :=
  ⟨srcSign_srcWord _ _ _, srcExponent_srcWord _ _ _, srcMantissa_srcWord _ _ _⟩

theorem narrowNan (s : Bit) (m : SrcMant) : Statement (.narrowNan s m) :=
  ⟨srcSign_srcWord _ _ _, srcExponent_srcWord _ _ _, srcMantissa_srcWord _ _ _⟩

theorem narrowSubnSrc (s : Bit) (m : SrcMant) : Statement (.narrowSubnSrc s m) :=
  ⟨srcSign_srcWord _ _ _, srcExponent_srcWord _ _ _, srcMantissa_srcWord _ _ _⟩

theorem narrowOvf (s : Bit) (e : SrcExp) (m : SrcMant) : Statement (.narrowOvf s e m) :=
  ⟨srcSign_srcWord _ _ _, srcExponent_srcWord _ _ _, srcMantissa_srcWord _ _ _⟩

theorem narrowNorm (s : Bit) (e : SrcExp) (m : SrcMant) : Statement (.narrowNorm s e m) :=
  ⟨srcSign_srcWord _ _ _, srcExponent_srcWord _ _ _, srcMantissa_srcWord _ _ _⟩

theorem narrowSub (s : Bit) (e : SrcExp) (m : SrcMant) : Statement (.narrowSub s e m) :=
  ⟨srcSign_srcWord _ _ _, srcExponent_srcWord _ _ _, srcMantissa_srcWord _ _ _⟩

theorem narrowFlush (s : Bit) (e : SrcExp) (m : SrcMant) : Statement (.narrowFlush s e m) :=
  ⟨srcSign_srcWord _ _ _, srcExponent_srcWord _ _ _, srcMantissa_srcWord _ _ _⟩

end Sys2Proof.Laws.EncodingHoldsFields
end

