-- ==== Sys2Proof/Tests/Slice0.lean ====
section
/-! SUPPORT. Tests and witnesses. Every expected value is a word of spec/95_test_vectors.md (its id is in
the name or the comment) or is written out by hand from the rule named. A `witness_` theorem shows operands
that meet the hypotheses of the obligation it is named after, at the ends of their range. -/

namespace Sys2Proof.Tests

open Sys2Proof Sys2Proof.Machine

/-- An evaluation ended in this state. -/
def ends (o : Host.Outcome State Fault Refusal) (t : State) : Bool :=
  match o with
  | .next u => decide (u = t)
  | .fault _ => false
  | .refused _ => false

/-- A step on the operand drives the result, whatever word stands on `dst`, and leaves the operand. -/
def gives (src : Quad) (dst : Double) : Bool :=
  ends (step ⟨src, 0x0123456789ABCDEF#64⟩) ⟨src, dst⟩

/-! ## WellFormed: an ill-formed term for each check, and the ends of each range -/

theorem test_wf_nan_needs_a_mantissa : (Instr.narrowNan 0 0).wellFormed = false := by decide
theorem test_wf_subnSrc_needs_a_mantissa : (Instr.narrowSubnSrc 1 0).wellFormed = false := by decide
theorem test_wf_ovf_exponent_too_low : (Instr.narrowOvf 0 0x43FE 0).wellFormed = false := by decide
theorem test_wf_ovf_exponent_all_ones : (Instr.narrowOvf 0 0x7FFF 0).wellFormed = false := by decide
theorem test_wf_norm_exponent_too_low : (Instr.narrowNorm 0 0x3C00 0).wellFormed = false := by decide
theorem test_wf_norm_exponent_too_high : (Instr.narrowNorm 0 0x43FF 0).wellFormed = false := by decide
theorem test_wf_sub_exponent_too_low : (Instr.narrowSub 0 0x3BCB 0).wellFormed = false := by decide
theorem test_wf_sub_exponent_too_high : (Instr.narrowSub 0 0x3C01 0).wellFormed = false := by decide
theorem test_wf_flush_exponent_zero : (Instr.narrowFlush 0 0 1).wellFormed = false := by decide
theorem test_wf_flush_exponent_too_high : (Instr.narrowFlush 0 0x3BCC 0).wellFormed = false := by decide

theorem test_wf_ends_of_the_ranges :
    (Instr.narrow 0).wellFormed = true ∧ (Instr.narrowZero 1).wellFormed = true ∧
    (Instr.narrowInf 1).wellFormed = true ∧ (Instr.narrowNan 0 1).wellFormed = true ∧
    (Instr.narrowSubnSrc 0 1).wellFormed = true ∧
    (Instr.narrowOvf 0 0x43FF 0).wellFormed = true ∧ (Instr.narrowOvf 0 0x7FFE 0).wellFormed = true ∧
    (Instr.narrowNorm 0 0x3C01 0).wellFormed = true ∧ (Instr.narrowNorm 0 0x43FE 0).wellFormed = true ∧
    (Instr.narrowSub 0 0x3BCC 0).wellFormed = true ∧ (Instr.narrowSub 0 0x3C00 0).wellFormed = true ∧
    (Instr.narrowFlush 0 1 0).wellFormed = true ∧ (Instr.narrowFlush 0 0x3BCB 0).wellFormed = true := by
  decide

/-! ## Decoding words written out from R56: sign 1 bit, E 15 bits, M 112 bits -/

/-- The row `NARROW` is not a path (R66): its operand word is the operand, which decodes to a path. -/
theorem test_decode_narrow :
    encode (.narrow 0x3FFF8000000000000000000000000000#128) = 0x3FFF8000000000000000000000000000#128 ∧
    decodeOperand 0x3FFF8000000000000000000000000000#128 = .narrowNorm 0 0x3FFF (1#112 <<< 111) := by
  decide

theorem test_decode_zero : decodeOperand (1#1 ++ 0#15 ++ 0#112) = .narrowZero 1 := by decide

theorem test_decode_inf : decodeOperand (0#1 ++ 0b111111111111111#15 ++ 0#112) = .narrowInf 0 := by decide

/-- The lowest mantissa bit alone, and the highest alone (S6, S5). -/
theorem test_decode_nan :
    decodeOperand 0x7FFF0000000000000000000000000001#128 = .narrowNan 0 1 ∧
    decodeOperand 0x7FFF8000000000000000000000000000#128 = .narrowNan 0 (1#112 <<< 111) := by decide

/-- S13, and section 3.1's line of it. -/
theorem test_decode_subnSrc :
    decodeOperand 0x8000FFFFFFFFFFFFFFFFFFFFFFFFFFFF#128
      = .narrowSubnSrc 1 0xFFFFFFFFFFFFFFFFFFFFFFFFFFFF := by decide

/-- O1 and S15, the two ends of the row. -/
theorem test_decode_ovf :
    decodeOperand 0x43FF0000000000000000000000000000#128 = .narrowOvf 0 0x43FF 0 ∧
    decodeOperand 0xFFFEFFFFFFFFFFFFFFFFFFFFFFFFFFFF#128
      = .narrowOvf 1 0x7FFE 0xFFFFFFFFFFFFFFFFFFFFFFFFFFFF := by decide

/-- N5 and O8, the two ends of the row; N7, section 3.1's line of it. -/
theorem test_decode_norm :
    decodeOperand 0x3C010000000000000000000000000000#128 = .narrowNorm 0 0x3C01 0 ∧
    decodeOperand 0x43FEFFFFFFFFFFFFF000000000000001#128
      = .narrowNorm 0 0x43FE 0xFFFFFFFFFFFFF000000000000001 ∧
    decodeOperand 0xC000921FB54442D18469898CC51701B8#128
      = .narrowNorm 1 0x4000 0x921FB54442D18469898CC51701B8 := by decide

/-- U6 and U1, the two ends of the row. -/
theorem test_decode_sub :
    decodeOperand 0x3BCC0000000000000000000000000000#128 = .narrowSub 0 0x3BCC 0 ∧
    decodeOperand 0x3C000000000000000000000000000000#128 = .narrowSub 0 0x3C00 0 := by decide

/-- S14 and U12, the two ends of the row. -/
theorem test_decode_flush :
    decodeOperand 0x00010000000000000000000000000000#128 = .narrowFlush 0 1 0 ∧
    decodeOperand 0xBBCB0000000000000000000000000000#128 = .narrowFlush 1 0x3BCB 0 := by decide

/-- The match words of spec/opcode_table.json, as the host numbers them; R64: one fixed length. -/
theorem test_decodeTableWord :
    decodeTableWord 128 0x7FFF0000000000000000000000000000 = some (.narrowInf 0) ∧
    decodeTableWord 128 0 = some (.narrowZero 0) ∧
    decodeTableWord 8 0x1FF = some (.narrowSubnSrc 0 0xFF) ∧ decodeTableWord 129 0 = none := by decide

/-- R43: 1.0 with its top byte, 0x3F, last under `little` and first under `big`. -/
theorem test_decodeBytes :
    decodeBytes .little [0, 0, 0, 0, 0, 0, 0, 0, 0, 0, 0, 0, 0, 0, 0xFF, 0x3F, 0xAA]
      = .ok (.narrowNorm 0 0x3FFF 0, [0xAA]) ∧
    decodeBytes .big [0x3F, 0xFF, 0, 0, 0, 0, 0, 0, 0, 0, 0, 0, 0, 0, 0, 0]
      = .ok (.narrowNorm 0 0x3FFF 0, []) ∧
    decodeBytes .little [0, 0, 0] = .error (.truncatedOperand 3) := ⟨rfl, rfl, rfl⟩

/-! ## One step of each row -/

/-- U22: rounding twice would give 2. -/
theorem test_exec_narrow_single_rounding :
    ends (exec (.narrow 0x3BE70000005FFFFFF800000000000000#128) State.reset)
      ⟨0, 0x0000000004000001#64⟩ = true := by decide

/-- N7, and the port keeps its operand whatever the instruction's own operand is. -/
theorem test_exec_narrow_inexact :
    ends (exec (.narrow 0xC000921FB54442D18469898CC51701B8#128) ⟨7, 5⟩)
      ⟨7, 0xC00921FB54442D18#64⟩ = true := by decide

theorem test_exec_zero_S2 : gives 0x80000000000000000000000000000000#128 0x8000000000000000#64 = true := by
  decide

theorem test_exec_inf_S4 : gives 0xFFFF0000000000000000000000000000#128 0xFFF0000000000000#64 = true := by
  decide

theorem test_exec_nan_S8 : gives 0xFFFF8000000000001000000000001000#128 0xFFF8000000000001#64 = true := by
  decide

theorem test_exec_nan_S10 : gives 0x7FFF0000000000000800000000000000#128 0x7FF8000000000000#64 = true := by
  decide

theorem test_exec_subnSrc_S13 :
    gives 0x8000FFFFFFFFFFFFFFFFFFFFFFFFFFFF#128 0x8000000000000000#64 = true := by decide

theorem test_exec_ovf_S15 : gives 0xFFFEFFFFFFFFFFFFFFFFFFFFFFFFFFFF#128 0xFFF0000000000000#64 = true := by
  decide

theorem test_exec_norm_R2 : gives 0x3FFF0000000000001800000000000000#128 0x3FF0000000000002#64 = true := by
  decide

/-- O3: overflow by the rounding carry. -/
theorem test_exec_norm_O3 : gives 0x43FEFFFFFFFFFFFFF800000000000000#128 0x7FF0000000000000#64 = true := by
  decide

/-- U8: the one band where the flush limit 53 shows. -/
theorem test_exec_sub_U8 : gives 0xBBCC8000000000000000000000000000#128 0x8000000000000001#64 = true := by
  decide

/-- U13: a subnormal that carries to the smallest normal. -/
theorem test_exec_sub_U13 : gives 0x3C00FFFFFFFFFFFFF000000000000000#128 0x0010000000000000#64 = true := by
  decide

theorem test_exec_flush_U11 : gives 0x3BCBFFFFFFFFFFFFFFFFFFFFFFFFFFFF#128 0x0000000000000000#64 = true := by
  decide

theorem test_exec_flush_U12 : gives 0xBBCB0000000000000000000000000000#128 0x8000000000000000#64 = true := by
  decide

/-- Section 5, U8: the other reading of the flush limit gives zero. -/
theorem test_flush_limit_52_U8 :
    narrowWith 52 0xBBCC8000000000000000000000000000#128 = 0x8000000000000000#64 := by decide

/-! ## The sub-blocks, signal by signal -/

/-- Section 3.2, the lines E = 0x3BCC and E = 0x43FE, and the Subnormal line. -/
theorem test_stageA :
    stageA 53 ⟨0, 0x3BCC, 5, .normal⟩ = ⟨-1075, -52, 1#1 ++ 5#112, false, true, 53, false⟩ ∧
    stageA 53 ⟨0, 0x43FE, 5, .normal⟩ = ⟨1023, 2046, 1#1 ++ 5#112, false, false, 0, false⟩ ∧
    stageA 53 ⟨0, 0, 5, .subnormal⟩ = ⟨-16382, -15359, 0#1 ++ 5#112, false, true, 15360, true⟩ := by
  decide

/-- Section 3.3, the line U22. -/
theorem test_rounder_U22 :
    rounder (1#1 ++ 0x0000005FFFFFF800000000000000#112) 26
      = ⟨86, 0x4000001, 0, 1, 1, 0x4000001, 0, 0x4000001, 0, 0x4000001⟩ := by decide

/-- Section 3.3, the line O3. -/
theorem test_rounder_and_stageB_O3 :
    rounder (1#1 ++ 0xFFFFFFFFFFFFF800000000000000#112) 0
      = ⟨60, 0x1FFFFFFFFFFFFF, 1, 0, 1, 0xFFFFFFFFFFFFF, 1, 0x10000000000000, 1, 0⟩ ∧
    stageB 2046 1 = ⟨2047, true⟩ := by decide

/-- Reset (R33, R186): the operand is the model's choice (log 1), the result is the operation's. -/
theorem test_reset : State.reset = ⟨0, narrow 0⟩ := by decide

/-- R33, R190: `dst` follows `src` at once, before any step (N3, and U8 as a table word). -/
theorem test_dst_follows_src :
    State.reset.present 0x3FFF8000000000000000000000000000#128
      = ⟨0x3FFF8000000000000000000000000000#128, 0x3FF8000000000000#64⟩ ∧
    State.reset.withFetchWord 128 0xBBCC8000000000000000000000000000
      = ⟨0xBBCC8000000000000000000000000000#128, 0x8000000000000001#64⟩ := by decide

/-- The next step after a table word is presented runs that word's row. -/
theorem test_withFetchWord :
    ends (step (State.reset.withFetchWord 128 0x7FFF0000000000000000000000000000))
      ⟨0x7FFF0000000000000000000000000000#128, 0x7FF0000000000000#64⟩ = true := by decide

/-! ## Witnesses of the obligations' hypotheses -/

theorem witness_DecodeOfEncodeIsTheInstruction :
    ∀ i ∈ [Instr.narrowZero 1, .narrowInf 0, .narrowNan 1 1, .narrowSubnSrc 0 1, .narrowOvf 1 0x7FFE 0,
        .narrowNorm 0 0x43FE 1, .narrowSub 1 0x3BCC 0, .narrowFlush 0 0x3BCB 1],
      i.wellFormed = true ∧ i.path?.isSome = true := by decide

theorem witness_OpcodeTableDecodesAsTheDecoder :
    pathRows.length = 8 ∧
    ∀ r ∈ pathRows, r.constraintHolds (srcWord 1 (BitVec.ofNat 15 r.eHigh) 0) = true ∨
      r.constraintHolds (srcWord 1 (BitVec.ofNat 15 r.eHigh) 1) = true := by decide

theorem witness_StepRunsTheDecodedInstruction :
    decodeBytes .little [0, 0, 0, 0, 0, 0, 0, 0, 0, 0, 0, 0, 0, 0, 0xFF, 0x3F]
      = .ok (.narrowNorm 0 0x3FFF 0, []) := rfl

theorem witness_TableWordIsRunByTheNextStep : 0 ≤ 128 ∧ 128 ≤ 128 := by decide

/-- The longest refused list, and a well-formed path instruction for the second clause. -/
theorem witness_OnlyWholeOperandsAreDecoded :
    (List.replicate 15 (0 : Byte)).length < 16 ∧
    (Instr.narrowSub 1 0x3BCC 0).wellFormed = true ∧
    (Instr.narrowSub 1 0x3BCC 0).path?.isSome = true := by decide

theorem witness_NormalRowRoundsOnceAtSixty :
    (0x3C01 ≤ (0x3C01#15).toNat ∧ (0x3C01#15).toNat ≤ 0x43FE) ∧
    (0x3C01 ≤ (0x43FE#15).toNat ∧ (0x43FE#15).toNat ≤ 0x43FE) := by decide

theorem witness_SubnormalRowRoundsOnceAtTheFullShift :
    (0x3BCC ≤ (0x3BCC#15).toNat ∧ (0x3BCC#15).toNat ≤ 0x3C00) ∧
    (0x3BCC ≤ (0x3C00#15).toNat ∧ (0x3C00#15).toNat ≤ 0x3C00) := by decide

/-- O3's fields overflow by the carry. -/
theorem witness_OverflowGivesSignedInfinity :
    (stageB (expField0 (destExponent .normal 0x43FE))
      (rounder (significand .normal 0xFFFFFFFFFFFFF800000000000000) 0).carry).overflowPost = true := by
  decide

/-- The row of normal results: no overflow at its ends, and with the carry (R6). -/
theorem witness_FiniteRowsPackTheFinishedFields_normal :
    (stageB (expField0 (destExponent .normal 0x3C01))
      (rounder (significand .normal 0) 0).carry).overflowPost = false ∧
    (stageB (expField0 (destExponent .normal 0x43FE))
      (rounder (significand .normal 0) 0).carry).overflowPost = false ∧
    (stageB (expField0 (destExponent .normal 0x3FFF))
      (rounder (significand .normal 0xFFFFFFFFFFFFF800000000000000) 0).carry).overflowPost = false ∧
    (rounder (significand .normal 0xFFFFFFFFFFFFF800000000000000) 0).carry = 1 := by decide

/-- The row of subnormal results: it carries (U13), rounds to zero (U6), rounds up from zero (U7). -/
theorem witness_FiniteRowsPackTheFinishedFields_subnormal :
    (rounder (significand .normal 0xFFFFFFFFFFFFF000000000000000)
      (extraShift (destExponent .normal 0x3C00))).carry = 1 ∧
    ((rounder (significand .normal 0) (extraShift (destExponent .normal 0x3BCC))).kept = 0 ∧
      (rounder (significand .normal 0) (extraShift (destExponent .normal 0x3BCC))).roundUp = 0) ∧
    ((rounder (significand .normal 1) (extraShift (destExponent .normal 0x3BCC))).kept = 0 ∧
      (rounder (significand .normal 1) (extraShift (destExponent .normal 0x3BCC))).roundUp = 1) := by decide

theorem witness_OverflowBeforeRoundingAtAllOnesCode :
    srcClass 0x43FF0000000000000000000000000000#128 = .normal ∧
    overflowPre (destExponent .normal (srcExponent 0x43FF0000000000000000000000000000#128)) = true := by
  decide

theorem witness_SignificandReinstatesImplicitBit :
    srcClass 0x00010000000000000000000000000000#128 = .normal ∧
    srcClass 0x00000000000000000000000000000001#128 = .subnormal := by decide

theorem witness_TrueExponentRemovesSourceBias :
    (1 ≤ (1#15).toNat ∧ (1#15).toNat ≤ 32766) ∧ (1 ≤ (0x7FFE#15).toNat ∧ (0x7FFE#15).toNat ≤ 32766) ∧
    trueExponent .normal 1 = -16382 ∧ trueExponent .normal 0x7FFE = 16383 := by decide

theorem witness_DestExponentAddsDestinationBias :
    (1 ≤ (1#15).toNat ∧ (1#15).toNat ≤ 32766) ∧ (1 ≤ (0x7FFE#15).toNat ∧ (0x7FFE#15).toNat ≤ 32766) ∧
    destExponent .normal 1 = -15359 ∧ destExponent .normal 0x7FFE = 17406 := by decide

/-- Both sides of each comparison of the rule: 0 and 1. -/
theorem witness_ExtraShiftDenormalises :
    (0 : Int) ≤ 0 ∧ (0 : Int) < 1 ∧ extraShift 0 = 1 ∧ extraShift 1 = 0 ∧ (0x3C00#15).toNat ≤ 0x3C00 ∧
    1 ≤ (1#15).toNat := by
  decide

/-- U11 and S12 are flushed, one of each class. -/
theorem witness_FlushBeyondTheFlushLimit :
    (1 ≤ (0x3BCB#15).toNat ∧ 1 ≤ (0x3BCC#15).toNat) ∧
    (srcClass 0x3BCBFFFFFFFFFFFFFFFFFFFFFFFFFFFF#128 = .normal ∧
      (stageA Config.flushLimit (decompose 0x3BCBFFFFFFFFFFFFFFFFFFFFFFFFFFFF#128)).flush = true) ∧
    (srcClass 0x00000000000000000000000000000001#128 = .subnormal ∧
      (stageA Config.flushLimit (decompose 0x00000000000000000000000000000001#128)).flush = true) := by
  decide

/-- Both clauses at the value where they meet, and the largest value without overflow. -/
theorem witness_ExponentFieldClampsAtZero :
    (overflowPre 0 = false ∧ (0 : Int) ≤ 0) ∧ (overflowPre 1 = false ∧ (0 : Int) < 1) ∧
    overflowPre 2046 = false := by decide

theorem witness_CarryIncrementsTheExponentField :
    ((0#11).toNat ≤ 2046 ∧ (2046#11).toNat ≤ 2046) ∧
    (0x3BCC ≤ (0x3BCC#15).toNat ∧ (0x3BCC#15).toNat ≤ 0x43FE) ∧
    (0x3BCC ≤ (0x43FE#15).toNat ∧ (0x43FE#15).toNat ≤ 0x43FE) := by decide

theorem witness_TinySourcesAreFlushed :
    srcClass 0x8000FFFFFFFFFFFFFFFFFFFFFFFFFFFF#128 = .subnormal ∧
    (srcClass 0x3BCBFFFFFFFFFFFFFFFFFFFFFFFFFFFF#128 = .normal ∧
      (srcExponent 0x3BCBFFFFFFFFFFFFFFFFFFFFFFFFFFFF#128).toNat ≤ 0x3BCB) := by decide

theorem witness_RounderComputesTheseIntegers : 0 ≤ 53 ∧ 53 ≤ 53 := by decide

theorem witness_CarryOnlyFromAllOnesField :
    (rounder (1#1 ++ 0xFFFFFFFFFFFFF800000000000000#112) 0).carry = 1 := by decide

theorem witness_RounderAtTheBottomOfTheRange : 54 ≤ 54 := by decide

theorem witness_NothingDiscardedMeansExact :
    (1#1 ++ 0#112).toNat % 2 ^ (60 + 0) = 0 := by decide

/-- A Normal that is rounded, at the lowest and the highest exponent the rounder sees. A Subnormal never
reaches it for this format pair (R111), so the class clause's other half has no witness. -/
theorem witness_OneAdderGivesTheResult :
    (srcClass 0x3BCC0000000000000000000000000000#128 = .normal ∧
      ∃ a e0 r b, engine Config.flushLimit (decompose 0x3BCC0000000000000000000000000000#128)
        = .rounded a e0 r b) ∧
    (srcClass 0x43FE0000000000000000000000000000#128 = .normal ∧
      ∃ a e0 r b, engine Config.flushLimit (decompose 0x43FE0000000000000000000000000000#128)
        = .rounded a e0 r b) :=
  ⟨⟨rfl, _, _, _, _, rfl⟩, ⟨rfl, _, _, _, _, rfl⟩⟩

/-- A step that answers a next state from an unsettled state: for SignIsPreserved,
EvaluationIsIdempotent, EveryStepSettlesTheBlock and EveryStepShowsAProducibleWord. -/
theorem witness_step_answers_next :
    step ⟨0x80000000000000000000000000000000#128, 5⟩
      = .next ⟨0x80000000000000000000000000000000#128, 0x8000000000000000#64⟩ := rfl

/-- A settled state, and a well-formed instruction whose operand stands on the port. -/
theorem witness_DstIsTheResultAtAllTimes :
    Settled (State.reset.present 0x3BCC0000000000000000000000000001#128) ∧
    (Instr.narrowSub 0 0x3BCC 1).wellFormed = true ∧
    encode (.narrowSub 0 0x3BCC 1)
      = (State.reset.present 0x3BCC0000000000000000000000000001#128).src :=
  ⟨rfl, by decide, by decide⟩

theorem witness_SpecialValuesMapToSpecialValues :
    srcClass 0x7FFF0000000000000000000000000001#128 = .nan := by decide

theorem witness_NarrowingIsMonotone :
    srcClass 0#128 ≠ .nan ∧ srcClass 0x7FFF0000000000000000000000000000#128 ≠ .nan ∧
    srcSign 0#128 = srcSign 0x7FFF0000000000000000000000000000#128 ∧
    srcCode 0#128 ≤ srcCode 0x7FFF0000000000000000000000000000#128 := by decide

theorem witness_FlushIsAShortcutFromFiftyThree : 53 ≤ 53 := by decide

theorem witness_FlushLimitFiftyTwoDiffersInOneBand :
    (srcExponent 0x3BCC0000000000000000000000000001#128).toNat = 0x3BCC ∧
    (srcMantissa 0x3BCC0000000000000000000000000001#128).toNat ≠ 0 := by decide

theorem witness_OrderOfEvaluationsDoesNotMatter : [(1 : Quad), 2].Perm [2, 1] := .swap _ _ _

/-! The witnesses in exact rationals. -/

theorem magnitude_src_pow (e : Nat) (he : e ≠ 0) :
    magnitude Config.srcFormat e 0 = (2 : ℚ) ^ ((e : Int) - 16383) := by
  simp [magnitude, Config.srcFormat, he]

/-- The value 2^-1074 in both formats (U3): the smallest subnormal, and negative. -/
theorem witness_RepresentableValuesAreExact :
    FpClass.isFinite (srcClass 0xBBCD0000000000000000000000000000#128) = true ∧
    FpClass.isFinite (dstClass 0x8000000000000001#64) = true ∧
    dstValue 0x8000000000000001#64 = srcValue 0xBBCD0000000000000000000000000000#128 ∧
    (0x8000000000000001#64).getLsbD 63 = (0xBBCD0000000000000000000000000000#128).getLsbD 127 := by
  refine ⟨by decide, by decide, ?_, by decide⟩
  have hs : srcMagnitude 0xBBCD0000000000000000000000000000#128 = (2 : ℚ) ^ (-1074 : Int) :=
    magnitude_src_pow 0x3BCD (by decide)
  have hd : dstMagnitude 0x8000000000000001#64 = (2 : ℚ) ^ (-52 : Int) * 2 ^ (-1022 : Int) := by
    change magnitude Config.dstFormat 0 1 = _
    simp [magnitude, Config.dstFormat, zpow_neg, zpow_ofNat]
  have h1 : srcSign 0xBBCD0000000000000000000000000000#128 = 1#1 := by decide
  have h2 : dstSignOf 0x8000000000000001#64 = 1#1 := by decide
  rw [srcValue, dstValue, hs, hd, h1, h2, ← zpow_add₀ (by norm_num)]
  norm_num

/-- The least magnitude that overflows, 2^1024 - 2^970 (O3), for the first clause. -/
theorem magnitude_O3 :
    srcMagnitude 0x43FEFFFFFFFFFFFFF800000000000000#128 = (2 : ℚ) ^ 1024 - 2 ^ 970 := by
  change magnitude Config.srcFormat 0x43FE 0xFFFFFFFFFFFFF800000000000000 = _
  have hz : (2 : ℚ) ^ (((0x43FE : Nat) : Int) - ((16383 : Nat) : Int)) = 2 ^ 970 * 2 ^ 53 := by
    rw [show (((0x43FE : Nat) : Int) - ((16383 : Nat) : Int)) = ((970 + 53 : Nat) : Int) by norm_num,
      zpow_natCast, pow_add]
  rw [magnitude, if_neg (by decide), show Config.srcFormat.exponentBias = 16383 from rfl, hz,
    show Config.srcFormat.mantissaBits = 112 from rfl, show (1024 : Nat) = 970 + 54 by rfl, pow_add]
  generalize (2 : ℚ) ^ 970 = a
  norm_num
  ring

/-- The codes' clause at the largest finite code, and both clauses of the rounding: O3 has exactly the
least magnitude that overflows, and a zero is below it. -/
theorem witness_NarrowIsCorrectlyRounded :
    (0 < maxFiniteCode ∧ maxFiniteCode ≤ maxFiniteCode) ∧
    (FpClass.isFinite (srcClass 0x43FEFFFFFFFFFFFFF800000000000000#128) = true ∧
      (2 : ℚ) ^ 1024 - 2 ^ 970 ≤ srcMagnitude 0x43FEFFFFFFFFFFFFF800000000000000#128) ∧
    (FpClass.isFinite (srcClass 0#128) = true ∧ srcMagnitude 0#128 < (2 : ℚ) ^ 1024 - 2 ^ 970) := by
  refine ⟨by decide, ⟨by decide, magnitude_O3.ge⟩, ⟨by decide, ?_⟩⟩
  have h0 : srcMagnitude 0#128 = 0 := by
    change magnitude Config.srcFormat 0 0 = 0
    simp [magnitude]
  rw [h0, sub_pos]
  exact pow_lt_pow_right₀ (by norm_num) (by norm_num)

theorem witness_OverflowBoundary :
    FpClass.isFinite (srcClass 0x43FEFFFFFFFFFFFFF800000000000000#128) = true ∧
    FpClass.isFinite (srcClass 0x43FEFFFFFFFFFFFFF7FFFFFFFFFFFFFF#128) = true := by decide

/-- The three bands at their lower ends: 2^-1075 itself (U6), the least value above it (U7), 2^-1074 (U3). -/
theorem witness_UnderflowBoundary :
    (FpClass.isFinite (srcClass 0x3BCC0000000000000000000000000000#128) = true ∧
      srcMagnitude 0x3BCC0000000000000000000000000000#128 ≤ (2 : ℚ) ^ (-1075 : Int)) ∧
    (FpClass.isFinite (srcClass 0x3BCC0000000000000000000000000001#128) = true ∧
      (2 : ℚ) ^ (-1075 : Int) < srcMagnitude 0x3BCC0000000000000000000000000001#128 ∧
      srcMagnitude 0x3BCC0000000000000000000000000001#128 < (2 : ℚ) ^ (-1074 : Int)) ∧
    (FpClass.isFinite (srcClass 0x3BCD0000000000000000000000000000#128) = true ∧
      (2 : ℚ) ^ (-1074 : Int) ≤ srcMagnitude 0x3BCD0000000000000000000000000000#128 ∧
      srcMagnitude 0x3BCD0000000000000000000000000000#128 < (2 : ℚ) ^ (-1022 : Int)) ∧
    srcClass 0x3BCC0000000000000000000000000000#128 ≠ .zero := by
  have h6 : srcMagnitude 0x3BCC0000000000000000000000000000#128 = (2 : ℚ) ^ (-1075 : Int) :=
    magnitude_src_pow 0x3BCC (by decide)
  have h3 : srcMagnitude 0x3BCD0000000000000000000000000000#128 = (2 : ℚ) ^ (-1074 : Int) :=
    magnitude_src_pow 0x3BCD (by decide)
  have h7 : srcMagnitude 0x3BCC0000000000000000000000000001#128
      = (1 + 1 / 2 ^ 112) * (2 : ℚ) ^ (-1075 : Int) := by
    change magnitude Config.srcFormat 0x3BCC 1 = _
    rw [magnitude, if_neg (by decide), Nat.cast_one]
    rfl
  have hz : (2 : ℚ) ^ (-1074 : Int) = 2 * 2 ^ (-1075 : Int) := by
    rw [show (-1074 : Int) = 1 + -1075 by rfl, zpow_add₀ (by norm_num), zpow_one]
  have hp : (0 : ℚ) < 2 ^ (-1075 : Int) := by positivity
  refine ⟨⟨by decide, h6.le⟩, ⟨by decide, ?_, ?_⟩, ⟨by decide, h3.ge, ?_⟩, by decide⟩
  · rw [h7]
    exact lt_mul_of_one_lt_left hp (by norm_num)
  · rw [h7, hz]
    exact mul_lt_mul_of_pos_right (by norm_num) hp
  · rw [h3]
    exact zpow_lt_zpow_right₀ (by norm_num) (by norm_num)

end Sys2Proof.Tests
end

section
/-! The flush limit (spec/00_scope.md R11, spec/90_conflicts.md C3): what the operation reads of its limit,
and the one band, E = 0x3BCC, in which the limits 52 and 53 part. -/

namespace Sys2Proof.Machine

variable {src : Quad}

/-- The limit enters an evaluation through the flush test alone (R106): two limits that flush the same
operand give it the same result. -/
theorem narrowWith_eq_of_flush_iff {l l' : Nat} (hl : l < 15360) (hl' : l' < 15360)
    (h : (srcExponent src).toNat + l < 15361 ↔ (srcExponent src).toNat + l' < 15361) :
    narrowWith l src = narrowWith l' src := by
  rcases classify_cases (srcExponent src) (srcMantissa src) with
    ⟨-, -, hc⟩ | ⟨-, -, hc⟩ | ⟨-, -, hc⟩ | ⟨-, -, hc⟩ | ⟨-, -, hc⟩
  · rw [narrowWith_zero hc, narrowWith_zero hc]
  · rw [narrowWith_subnormal hl hc, narrowWith_subnormal hl' hc]
  · rw [narrowWith_infinity hc, narrowWith_infinity hc]
  · rw [narrowWith_nan hc, narrowWith_nan hc]
  · by_cases hov : 17407 ≤ (srcExponent src).toNat
    · rw [narrowWith_overflow hc hov, narrowWith_overflow hc hov]
    by_cases hfl : (srcExponent src).toNat + l < 15361
    · rw [narrowWith_flush hc hfl, narrowWith_flush hc (h.mp hfl)]
    · have hfl' : ¬ (srcExponent src).toNat + l' < 15361 := mt h.mpr hfl
      rw [narrowWith_rounded hc (by omega) (by omega), narrowWith_rounded hc (by omega) (by omega)]

/-- Limits 52 and 53 flush the same operands outside the band E = 0x3BCC. -/
theorem narrowWith_52_eq_narrow (h : (srcExponent src).toNat ≠ 0x3BCC) :
    narrowWith 52 src = narrow src :=
  narrowWith_eq_of_flush_iff (l' := Config.flushLimit) (by omega) (by rw [Config.flushLimit_eq]; omega)
    (by rw [Config.flushLimit_eq]; omega)

/-- In the band E = 0x3BCC the extra shift is 53, so limit 52 flushes. -/
theorem narrowWith_52_of_band (h : (srcExponent src).toNat = 0x3BCC) :
    narrowWith 52 src = packFlush (srcSign src) :=
  narrowWith_flush (classify_normal (by omega) (by omega)) (by omega)

/-- A Normal significand shifted by its whole width keeps no bit (R126). -/
theorem rounder_truncatedMantissa_normal_53 (m : SrcMant) :
    (rounder (significand .normal m) 53).truncatedMantissa.toNat = 0 := by
  have hm := m.isLt
  rw [rounder_truncatedMantissa_toNat, rounder_kept_toNat, significand_toNat, if_pos rfl]
  omega

/-- A Normal significand shifted by its whole width is at least one half, and exactly one half, which
ties to the even 0, when the mantissa field is 0 (R126, R122). -/
theorem rounder_roundUp_normal_53 (m : SrcMant) :
    (rounder (significand .normal m) 53).roundUp.toNat = if m.toNat = 0 then 0 else 1 := by
  have hm := m.isLt
  rw [rounder_roundUp_toNat, significand_toNat, if_pos rfl]
  by_cases h : m.toNat = 0
  · rw [if_pos h, if_neg (by omega)]
  · rw [if_neg h, if_pos (by omega)]

/-- In the band E = 0x3BCC this hardware rounds to the least subnormal, or to zero for the tie M = 0. -/
theorem narrow_of_band (h : (srcExponent src).toNat = 0x3BCC) :
    narrow src = (srcSign src ++ BitVec.ofNat 63 (if (srcMantissa src).toNat = 0 then 0 else 1) :
      BitVec 64) := by
  have hd : destExponent .normal (srcExponent src) = -52 := by
    rw [destExponent_normal, h]
    rfl
  rw [narrow, Config.flushLimit_eq,
    narrowWith_rounded (classify_normal (by omega) (by omega)) (by omega) (by omega), hd,
    expField0_of_nonpos (by omega), extraShift_of_nonpos (by omega),
    show (1 - (-52 : Int)).toNat = 53 from rfl, roundAndPack_eq _ _ _ _ (by simp),
    rounder_truncatedMantissa_normal_53, rounder_roundUp_normal_53]
  simp

/-- In the band the two readings differ by whether the operand is the tie (C3). -/
theorem narrowWith_52_ne_narrow_iff_of_band (h : (srcExponent src).toNat = 0x3BCC) :
    narrowWith 52 src ≠ narrow src ↔ (srcMantissa src).toNat ≠ 0 := by
  rw [narrowWith_52_of_band h, narrow_of_band h, packFlush_eq]
  by_cases hm : (srcMantissa src).toNat = 0
  · simp [hm]
  · have hne : (srcSign src ++ BitVec.ofNat 63 0 : BitVec 64) ≠ srcSign src ++ BitVec.ofNat 63 1 := by
      intro heq
      have hcode := congrArg dstCode heq
      rw [dstCode_signCode _ _ (by omega), dstCode_signCode _ _ (by omega)] at hcode
      omega
    rw [if_neg hm]
    exact iff_of_true hne hm

/-- Settles O49: outside the band E = 0x3BCC the two limits flush the same operands; in it, limit 52
flushes and this hardware rounds up all but the tie. -/
theorem flushLimitFiftyTwoDiffersInOneBand : Obligations.FlushLimitFiftyTwoDiffersInOneBand := by
  unfold Obligations.FlushLimitFiftyTwoDiffersInOneBand
  intro src
  refine ⟨?_, fun h => narrowWith_52_of_band h⟩
  by_cases h : (srcExponent src).toNat = 0x3BCC
  · simpa only [h, true_and] using narrowWith_52_ne_narrow_iff_of_band h
  · exact iff_of_false (not_not_intro (narrowWith_52_eq_narrow h)) fun hband => h hband.1

end Sys2Proof.Machine
end

section
/-! The constants that the two Format Descriptors determine (spec/00_scope.md R6 to R9): the equations that
the constants' laws above do not hold. -/

namespace Sys2Proof

@[simp] theorem Config.dstExpMaxFinite_eq : Config.dstExpMaxFinite = 2046 := by
  rw [Config.dstExpMaxFinite, Config.dstExpOnes_eq]

@[simp] theorem Config.expDelta_eq : Config.expDelta = 15360 := by
  simp [Config.expDelta]

@[simp] theorem Config.dstEmax_eq : Config.dstEmax = 1023 := by
  simp [Config.dstEmax]

@[simp] theorem Config.dstEmin_eq : Config.dstEmin = -1022 := by
  simp [Config.dstEmin]

@[simp] theorem Config.dstSubfloor_eq : Config.dstSubfloor = -1074 := by
  rw [Config.dstSubfloor, Config.dstEmin_eq]
  rfl

/-- Settles O59: each constant is computed from the descriptors; the words and masks by evaluation. -/
theorem derivedConstantsHaveTheirValues : Obligations.DerivedConstantsHaveTheirValues := by
  unfold Obligations.DerivedConstantsHaveTheirValues
  have hWords : Config.dstInf = 0x7FF0000000000000#64 ∧ Config.dstQuiet = 0x0008000000000000#52 ∧
      Config.dstSign = 0x8000000000000000#64 := by decide
  have hMasks : Config.dstSigMask = 0x000FFFFFFFFFFFFF ∧
      Config.srcSigMask = 0x0000FFFFFFFFFFFFFFFFFFFFFFFFFFFF ∧
      Config.srcImplicit = 0x00010000000000000000000000000000 := by decide
  obtain ⟨hInf, hQuiet, hSign⟩ := hWords
  obtain ⟨hDstMask, hSrcMask, hImplicit⟩ := hMasks
  exact ⟨rfl, rfl, rfl, rfl, Config.srcExpOnes_eq, Config.dstExpOnes_eq, Config.dstExpMaxFinite_eq,
    Config.truncShift_eq, Config.expDelta_eq, hInf, hQuiet, hSign, hDstMask, hSrcMask, hImplicit,
    Config.dstEmax_eq, Config.dstEmin_eq, Config.dstSubfloor_eq, Config.eOvf_eq, Config.eUnder_eq,
    Config.eFlush_eq⟩

end Sys2Proof
end

section
/-! The block follows its operand (spec/10_state.md R33, R21): an instruction whose operand word is `src`
drives `NARROW(src)`, so a step settles the block, and a settled block stays as it is. -/

namespace Sys2Proof

/-- Decoding the operand word of a well-formed path instruction gives the instruction back (R62, R66). -/
theorem decodeOperand_encode {i : Instr} (hwf : i.wellFormed = true) (hpath : i.path?.isSome = true) :
    decodeOperand (encode i) = i := by
  cases i with
  | narrow src => simp [Instr.path?] at hpath
  | narrowZero s => simp [encode, decodeOperand]
  | narrowInf s => simp [encode, decodeOperand, srcExpOnesField]
  | narrowNan s m =>
    have hm : m ≠ 0#112 := by simpa [Instr.wellFormed] using hwf
    simp [encode, decodeOperand, srcExpOnesField, hm]
  | narrowSubnSrc s m =>
    have hm : m ≠ 0#112 := by simpa [Instr.wellFormed] using hwf
    simp [encode, decodeOperand, hm]
  | narrowOvf s e m =>
    have he : 17407 ≤ e.toNat ∧ e.toNat < 32767 := by simpa [Instr.wellFormed] using hwf
    simp (disch := omega) [encode, decodeOperand, if_pos, if_neg]
  | narrowNorm s e m =>
    have he : 15360 < e.toNat ∧ e.toNat < 17407 := by simpa [Instr.wellFormed] using hwf
    simp (disch := omega) [encode, decodeOperand, if_pos, if_neg]
  | narrowSub s e m =>
    have he : 15307 < e.toNat ∧ e.toNat ≤ 15360 := by simpa [Instr.wellFormed] using hwf
    simp (disch := omega) [encode, decodeOperand, if_pos, if_neg]
  | narrowFlush s e m =>
    have he : 1 ≤ e.toNat ∧ e.toNat ≤ 15307 := by simpa [Instr.wellFormed] using hwf
    simp (disch := omega) [encode, decodeOperand, if_neg]

/-- Everything `decodeBytes` accepts: 16 bytes from the front are the operand, the others are left. -/
theorem decodeBytes_eq_ok_iff {order : ByteOrder} {bytes rest : List Byte} {i : Instr} :
    decodeBytes order bytes = .ok (i, rest) ↔
      16 ≤ bytes.length ∧ decodeOperand (operandOfBytes order (bytes.take 16)) = i ∧
        bytes.drop 16 = rest := by
  rw [decodeBytes]
  split
  · exact iff_of_false (by simp) fun h => absurd h.1 (by omega)
  · simp only [Except.ok.injEq, Prod.mk.injEq, iff_and_self]
    omega

namespace Machine

/-- The path row that an operand selects drives the operand's result (R82): each row is the packer's rule
for the class, or for the outcome of the engine, that the row's constraint on E and M gives. -/
theorem exec_decodeOperand (src : Quad) (s : State) :
    exec (decodeOperand src) s = complete (narrow src) s := by
  have hnormal (h : (srcExponent src).toNat ≠ 0 ∧ (srcExponent src).toNat ≠ 32767) :
      classify (srcExponent src) (srcMantissa src) = .normal := classify_normal h.1 h.2
  rcases decodeOperand_cases src with ⟨he, hm, hd⟩ | ⟨he, hm, hd⟩ | ⟨he, hm, hd⟩ | ⟨he, hm, hd⟩ |
    ⟨hlo, hhi, hd⟩ | ⟨hlo, hhi, hd⟩ | ⟨hlo, hhi, hd⟩ | ⟨hlo, hhi, hd⟩ <;> rw [hd, narrow]
  · rw [narrowWith_zero (by rw [classify_zero_exp he, if_pos hm])]; rfl
  · rw [narrowWith_subnormal (by simp) (by rw [classify_zero_exp he, if_neg hm])]; rfl
  · rw [narrowWith_infinity (by rw [classify_ones_exp he, if_pos hm])]; rfl
  · rw [narrowWith_nan (by rw [classify_ones_exp he, if_neg hm])]; rfl
  · rw [narrowWith_overflow (hnormal (by omega)) hlo]; rfl
  · have hpos : 0 < destExponent .normal (srcExponent src) := by rw [destExponent_normal]; omega
    rw [narrowWith_rounded (hnormal (by omega)) (by omega) hhi, extraShift_of_pos hpos]; rfl
  · have hnonpos : destExponent .normal (srcExponent src) ≤ 0 := by rw [destExponent_normal]; omega
    rw [narrowWith_rounded (hnormal (by omega)) (by rw [Config.flushLimit_eq]; omega) (by omega),
      expField0_of_nonpos hnonpos]; rfl
  · rw [narrowWith_flush (hnormal (by omega)) (by rw [Config.flushLimit_eq]; omega)]; rfl

/-- A well-formed instruction drives the result of its own operand word, as the whole operation or as the
path row that the word selects. -/
theorem exec_of_wellFormed {i : Instr} (hwf : i.wellFormed = true) (s : State) :
    exec i s = complete (narrow (encode i)) s := by
  cases hpath : i.path? with
  | none =>
    cases i with
    | narrow src => rfl
    | _ => simp [Instr.path?] at hpath
  | some p => rw [← exec_decodeOperand, decodeOperand_encode hwf (by simp [hpath])]

/-- Everything a step does: it drives the result of the operand on `src` (R33, R194). -/
theorem step_eq_complete (s : State) : step s = complete (narrow s.src) s := exec_decodeOperand s.src s

theorem step_next_iff {s t : State} : step s = .next t ↔ t = s.driveDst (narrow s.src) := by
  rw [step_eq_complete, complete_next_iff]

/-- Driving the result of the operand on `src` settles the block, whatever `dst` carried. -/
theorem settled_driveDst_narrow (s : State) : Settled (s.driveDst (narrow s.src)) := rfl

/-- The output port follows a new operand at once (R190). -/
theorem settled_present (s : State) (x : Quad) : Settled (s.present x) := rfl

theorem settled_reset : Settled State.reset := by
  rw [Settled, State.reset_src, narrow, narrowWith_zero (by decide)]
  decide

/-- A settled block already carries what a step would drive. -/
theorem driveDst_narrow_of_settled {s : State} (h : Settled s) : s.driveDst (narrow s.src) = s := by
  rw [← h]
  rfl

/-- Settles O53: a step only drives `dst`, with the result of the operand it leaves on `src`. -/
theorem everyStepSettlesTheBlock : Obligations.EveryStepSettlesTheBlock := by
  unfold Obligations.EveryStepSettlesTheBlock
  intro s t h
  rw [step_next_iff.mp h]
  exact ⟨settled_driveDst_narrow s, State.driveDst_src s _⟩

/-- Settles O60: reset, presenting an operand and a well-formed instruction on its own operand each drive
`NARROW(src)`, which a settled block carries already. -/
theorem dstIsTheResultAtAllTimes : Obligations.DstIsTheResultAtAllTimes := by
  unfold Obligations.DstIsTheResultAtAllTimes
  refine ⟨settled_reset, ?_, ?_, ?_, ?_⟩
  · exact fun s x => ⟨settled_present s x, State.present_src s x⟩
  · exact fun s nbits w => settled_present s (operandOfTableWord nbits w)
  · intro s hs
    exact step_next_iff.mpr (driveDst_narrow_of_settled hs).symm
  · intro i s hwf hsrc
    have hexec : exec i s = .next (s.driveDst (narrow s.src)) := by
      rw [exec_of_wellFormed hwf, hsrc, complete_eq_next]
    exact ⟨_, hexec, State.driveDst_src s _, settled_driveDst_narrow s⟩

/-- Settles O8: a step decodes the operand on `src`, which is the one that the host's bytes hold. -/
theorem stepRunsTheDecodedInstruction : Obligations.StepRunsTheDecodedInstruction := by
  unfold Obligations.StepRunsTheDecodedInstruction
  refine ⟨fun s => rfl, fun order bytes rest i s h => ?_⟩
  obtain ⟨-, hi, -⟩ := decodeBytes_eq_ok_iff.mp h
  rw [step, State.present_src, hi]

/-- Settles O55: the result of the operand 0 is the zero of its sign (R137). -/
theorem resetIsSettled : Obligations.ResetIsSettled := by
  unfold Obligations.ResetIsSettled
  exact ⟨settled_reset, rfl, rfl⟩

end Machine

end Sys2Proof
end

section
/-! The host's bytes (spec/20_memory.md R43, R44): under `little` a word's byte j is its bits 8j+7 down to
8j, an operand is read back from its 16 bytes, and only whole operands are decoded. -/

namespace Sys2Proof

/-- Byte j of a word of any width holds the word's bits 8j+7 down to 8j (R43). -/
theorem littleBytes_toNat_getElem? {w : Nat} (x : BitVec w) {n j : Nat} (h : j < n) :
    (littleBytes n x.toNat)[j]? = some (x.extractLsb' (8 * j) 8) := by
  have hshift : x.toNat / 256 ^ j = x.toNat >>> (8 * j) := by
    rw [Nat.shiftRight_eq_div_pow, pow_mul, show 256 = 2 ^ 8 from rfl]
  rw [littleBytes_getElem? n x.toNat j h, hshift]
  rfl

@[simp] theorem operandBytes_length (order : ByteOrder) (src : Quad) :
    (operandBytes order src).length = 16 := by
  cases order <;> simp [operandBytes]

/-- An operand is read back from its bytes in the order in which they were written (R43). -/
@[simp] theorem operandOfBytes_operandBytes (order : ByteOrder) (src : Quad) :
    operandOfBytes order (operandBytes order src) = src := by
  have hlittle : BitVec.ofNat 128 (littleNat (littleBytes 16 src.toNat)) = src := by
    rw [littleNat_littleBytes, Nat.mod_eq_of_lt (src.isLt.trans_eq (by norm_num)), BitVec.ofNat_toNat,
      BitVec.setWidth_eq]
  cases order with
  | little => exact hlittle
  | big => rw [operandBytes, operandOfBytes, List.reverse_reverse, hlittle]

/-- Settles O10: a word's bytes are its base 256 digits, which are its runs of eight bits. -/
theorem hostBytesHoldTheWord : Obligations.HostBytesHoldTheWord := by
  unfold Obligations.HostBytesHoldTheWord
  refine ⟨fun src => ⟨operandBytes_length .little src, fun j hj => ?_, rfl, fun order => ?_⟩,
    fun dst => ⟨littleBytes_length 8 dst.toNat, fun j hj => ?_, rfl⟩⟩
  · exact littleBytes_toNat_getElem? src hj
  · exact operandOfBytes_operandBytes order src
  · exact littleBytes_toNat_getElem? dst hj

/-- Settles O11: an instruction's 16 bytes are the front that `decodeBytes` takes, and its operand decodes
to it. -/
theorem onlyWholeOperandsAreDecoded : Obligations.OnlyWholeOperandsAreDecoded := by
  unfold Obligations.OnlyWholeOperandsAreDecoded
  refine ⟨fun order bytes hshort => if_pos hshort, fun order i rest hwf hpath => ?_⟩
  have hlen : (encodeBytes order i).length = 16 := operandBytes_length order (encode i)
  refine decodeBytes_eq_ok_iff.mpr ⟨by simp [hlen], ?_, List.drop_left' hlen⟩
  rw [List.take_left' hlen, encodeBytes, operandOfBytes_operandBytes, decodeOperand_encode hwf hpath]

end Sys2Proof
end

section
/-! Evaluations that follow one another (spec/20_memory.md R45, R47): an evaluation presents its operand and
adds nothing more, so a run of them is a fold of presentations, on one block or on a bank of blocks. -/

namespace Sys2Proof.Machine

/-- A step on a settled block adds nothing (R33). -/
theorem step_of_settled {s : State} (h : Settled s) : step s = .next s :=
  step_next_iff.mpr (driveDst_narrow_of_settled h).symm

/-- An evaluation is the presentation of its operand, which settles the block. -/
@[simp] theorem evaluate_eq_present (x : Quad) (s : State) : evaluate x s = .next (s.present x) :=
  step_of_settled (settled_present s x)

/-- Settles O52: the first step settles the block. -/
theorem evaluationIsIdempotent : Obligations.EvaluationIsIdempotent := by
  unfold Obligations.EvaluationIsIdempotent
  intro s t h
  obtain ⟨hsettled, -⟩ := everyStepSettlesTheBlock s t h
  exact step_of_settled hsettled

/-! ## One block -/

/-- A run on one block completes, with each operand's own result (R194). -/
theorem runEvaluations_eq (xs : List Quad) (s : State) :
    runEvaluations xs s = .next (xs.foldl State.present s, xs.map narrow) := by
  induction xs generalizing s with
  | nil => rfl
  | cons x xs ih => simp [runEvaluations, ih]

/-- Only the last presentation shows on the ports; with none they stay as they are. -/
theorem foldl_present_eq (xs : List Quad) (s : State) :
    xs.foldl State.present s = xs.getLast?.elim s s.present := by
  rcases List.eq_nil_or_concat xs with rfl | ⟨ys, x, rfl⟩
  · rfl
  · rw [List.concat_eq_append, List.foldl_concat, List.getLast?_concat]
    rfl

/-- Settles O58: both runs pair each operand with its own result, which no other operand enters. -/
theorem orderOfEvaluationsDoesNotMatter : Obligations.OrderOfEvaluationsDoesNotMatter := by
  unfold Obligations.OrderOfEvaluationsDoesNotMatter
  intro xs ys s s' hperm
  refine ⟨_, _, _, _, runEvaluations_eq xs s, runEvaluations_eq ys s', ?_⟩
  rw [← List.map_prod_left_eq_zip, ← List.map_prod_left_eq_zip]
  exact hperm.map _

/-! ## A bank of blocks -/

/-- Present an operand to one block of a bank (R47). -/
def presentTo {n : Nat} (bank : Vector State n) (e : Fin n × Quad) : Vector State n :=
  bank.set e.1 ((bank.get e.1).present e.2)

/-- The operands that a schedule gives to block b, in their order. -/
def operandsOf {n : Nat} (b : Fin n) (schedule : List (Fin n × Quad)) : List Quad :=
  (schedule.filter fun e => e.1 = b).map Prod.snd

variable {n : Nat}

/-- A presentation reaches the block it is meant for and no other. -/
theorem presentTo_get (bank : Vector State n) (e : Fin n × Quad) (b : Fin n) :
    (presentTo bank e).get b = if e.1 = b then (bank.get b).present e.2 else bank.get b := by
  by_cases h : e.1 = b
  · subst h
    simp [presentTo, Vector.get_eq_getElem]
  · have hval : (e.1 : Nat) ≠ b := mt Fin.ext h
    simp [presentTo, Vector.get_eq_getElem, h, hval]

/-- A run on a bank completes, with each operand's own result (R47). -/
theorem runBank_eq (schedule : List (Fin n × Quad)) (bank : Vector State n) :
    runBank schedule bank
      = .next (schedule.foldl presentTo bank, schedule.map fun e => (e.1, narrow e.2)) := by
  induction schedule generalizing bank with
  | nil => rfl
  | cons e rest ih =>
    have hset : bank.set e.1 ((bank.get e.1).present e.2) = presentTo bank e := rfl
    simp [runBank, hset, ih]

/-- Noninterference: each block goes through the operands given to it, as if it were alone (R47 (b)). -/
theorem foldl_presentTo_get (schedule : List (Fin n × Quad)) (bank : Vector State n) (b : Fin n) :
    (schedule.foldl presentTo bank).get b
      = (operandsOf b schedule).foldl State.present (bank.get b) := by
  induction schedule generalizing bank with
  | nil => rfl
  | cons e rest ih =>
    rw [List.foldl_cons, ih, presentTo_get]
    by_cases h : e.1 = b <;> simp [operandsOf, h]

/-- Settles O57: a block's ports at the end are those of a run of its own operands, so the last of these
decides them. -/
theorem blocksNeverCommunicate : Obligations.BlocksNeverCommunicate := by
  unfold Obligations.BlocksNeverCommunicate
  intro n schedule bank
  refine ⟨_, runBank_eq schedule bank, fun b => ?_⟩
  rw [foldl_presentTo_get, foldl_present_eq, operandsOf, List.getLast?_map]
  cases (schedule.filter fun e => e.1 = b).getLast? with
  | none => rfl
  | some e => rfl

end Sys2Proof.Machine
end

section
/-! The fields of an operand word as its bits (spec/30_encoding.md R56, R90 to R92), and what the masks of
the path map (R62) keep of them. -/

namespace Sys2Proof

/-- A word put together from its own fields (R56). -/
@[simp] theorem srcWord_fields (src : Quad) :
    srcWord (srcSign src) (srcExponent src) (srcMantissa src) = src :=
  (Laws.EncodingHoldsFields.narrow src).symm

theorem srcWord_inj {s s' : Bit} {e e' : SrcExp} {m m' : SrcMant} :
    srcWord s e m = srcWord s' e' m' ↔ s = s' ∧ e = e' ∧ m = m' := by
  refine ⟨fun h => ⟨?_, ?_, ?_⟩, fun ⟨hs, he, hm⟩ => by rw [hs, he, hm]⟩
  · simpa using congrArg srcSign h
  · simpa using congrArg srcExponent h
  · simpa using congrArg srcMantissa h

theorem srcWord_and_srcWord (s s' : Bit) (e e' : SrcExp) (m m' : SrcMant) :
    srcWord s e m &&& srcWord s' e' m' = srcWord (s &&& s') (e &&& e') (m &&& m') :=
  BitVec.and_append.trans (congrArg (· ++ (m &&& m')) BitVec.and_append)

theorem srcWord_xor_srcWord (s s' : Bit) (e e' : SrcExp) (m m' : SrcMant) :
    srcWord s e m ^^^ srcWord s' e' m' = srcWord (s ^^^ s') (e ^^^ e') (m ^^^ m') :=
  BitVec.xor_append.trans (congrArg (· ++ (m ^^^ m')) BitVec.xor_append)

/-- The mask of all bits but the sign keeps E and M. -/
theorem and_codeMask (src : Quad) :
    src &&& 0x7FFFFFFFFFFFFFFFFFFFFFFFFFFFFFFF#128 = srcWord 0 (srcExponent src) (srcMantissa src) := by
  have hmask : 0x7FFFFFFFFFFFFFFFFFFFFFFFFFFFFFFF#128
      = srcWord 0 (BitVec.allOnes 15) (BitVec.allOnes 112) := by decide
  calc src &&& 0x7FFFFFFFFFFFFFFFFFFFFFFFFFFFFFFF#128
    _ = srcWord (srcSign src) (srcExponent src) (srcMantissa src)
          &&& srcWord 0 (BitVec.allOnes 15) (BitVec.allOnes 112) := by rw [srcWord_fields, hmask]
    _ = _ := by
      rw [srcWord_and_srcWord, BitVec.and_allOnes, BitVec.and_allOnes]
      exact congrArg (srcWord · _ _) BitVec.and_zero

/-- The mask of the exponent field keeps E. -/
theorem and_exponentMask (src : Quad) :
    src &&& 0x7FFF0000000000000000000000000000#128 = srcWord 0 (srcExponent src) 0 := by
  have hmask : 0x7FFF0000000000000000000000000000#128 = srcWord 0 (BitVec.allOnes 15) 0 := by decide
  calc src &&& 0x7FFF0000000000000000000000000000#128
    _ = srcWord (srcSign src) (srcExponent src) (srcMantissa src)
          &&& srcWord 0 (BitVec.allOnes 15) 0 := by rw [srcWord_fields, hmask]
    _ = _ := by
      rw [srcWord_and_srcWord, BitVec.and_allOnes]
      exact congrArg₂ (srcWord · _ ·) BitVec.and_zero BitVec.and_zero

/-- The operand with the other sign has the same E and M. -/
theorem xor_signMask (src : Quad) :
    src ^^^ 0x80000000000000000000000000000000#128
      = srcWord (~~~ srcSign src) (srcExponent src) (srcMantissa src) := by
  have hmask : 0x80000000000000000000000000000000#128 = srcWord (BitVec.allOnes 1) 0 0 := by decide
  calc src ^^^ 0x80000000000000000000000000000000#128
    _ = srcWord (srcSign src) (srcExponent src) (srcMantissa src)
          ^^^ srcWord (BitVec.allOnes 1) 0 0 := by rw [srcWord_fields, hmask]
    _ = _ := by
      rw [srcWord_xor_srcWord, BitVec.xor_allOnes]
      exact congrArg₂ _ BitVec.xor_zero BitVec.xor_zero

theorem srcExponent_eq_zero_iff (src : Quad) : srcExponent src = 0 ↔ (srcExponent src).toNat = 0 := by
  rw [← BitVec.toNat_inj]; rfl

theorem srcExponent_eq_ones_iff (src : Quad) :
    srcExponent src = srcExpOnesField ↔ (srcExponent src).toNat = 0x7FFF := by
  rw [← BitVec.toNat_inj, srcExpOnesField, Config.srcExpOnes_eq]; rfl

theorem srcMantissa_eq_zero_iff (src : Quad) : srcMantissa src = 0 ↔ (srcMantissa src).toNat = 0 := by
  rw [← BitVec.toNat_inj]; rfl

/-- R62's mask of a zero: E = 0 and M = 0. -/
theorem and_codeMask_eq_zero_iff (src : Quad) :
    src &&& 0x7FFFFFFFFFFFFFFFFFFFFFFFFFFFFFFF#128 = 0 ↔
      (srcExponent src).toNat = 0 ∧ (srcMantissa src).toNat = 0 := by
  have hbits : (0 : Quad) = srcWord 0 0 0 := by decide
  rw [and_codeMask, hbits, srcWord_inj, srcExponent_eq_zero_iff, srcMantissa_eq_zero_iff]
  exact and_iff_right rfl

/-- R62's mask of an infinity: E = 0x7FFF and M = 0. -/
theorem and_codeMask_eq_ones_iff (src : Quad) :
    src &&& 0x7FFFFFFFFFFFFFFFFFFFFFFFFFFFFFFF#128 = 0x7FFF0000000000000000000000000000#128 ↔
      (srcExponent src).toNat = 0x7FFF ∧ (srcMantissa src).toNat = 0 := by
  have hbits : 0x7FFF0000000000000000000000000000#128 = srcWord 0 srcExpOnesField 0 := by decide
  rw [and_codeMask, hbits, srcWord_inj, srcExponent_eq_ones_iff, srcMantissa_eq_zero_iff]
  exact and_iff_right rfl

/-- R62's mask of a source subnormal: E = 0. -/
theorem and_exponentMask_eq_zero_iff (src : Quad) :
    src &&& 0x7FFF0000000000000000000000000000#128 = 0 ↔ (srcExponent src).toNat = 0 := by
  have hbits : (0 : Quad) = srcWord 0 0 0 := by decide
  rw [and_exponentMask, hbits, srcWord_inj, srcExponent_eq_zero_iff]
  simp

/-- R62's mask of a NaN: E = 0x7FFF. -/
theorem and_exponentMask_eq_ones_iff (src : Quad) :
    src &&& 0x7FFF0000000000000000000000000000#128 = 0x7FFF0000000000000000000000000000#128 ↔
      (srcExponent src).toNat = 0x7FFF := by
  have hbits : 0x7FFF0000000000000000000000000000#128 = srcWord 0 srcExpOnesField 0 := by decide
  rw [and_exponentMask, hbits, srcWord_inj, srcExponent_eq_ones_iff]
  simp

/-- Settles O2: the fields are the word's digits in mixed base, and runs of its bits. -/
theorem operandIsSignExponentMantissa : Obligations.OperandIsSignExponentMantissa := by
  unfold Obligations.OperandIsSignExponentMantissa
  intro src
  refine ⟨?_, srcWord_fields src, ?_, fun i hi => ?_, fun i hi => ?_⟩
  · rw [← srcWord_toNat, srcWord_fields]
  · simp [srcSign]
  · simp [srcExponent, hi]
  · simp [srcMantissa, hi]

end Sys2Proof
end

section
/-! The path map (spec/30_encoding.md R62): the condition by which an operand selects a path, as one
predicate that the decoder and the opcode table (R66) are both compared with. -/

namespace Sys2Proof

/-- The line of R62's map for a path: its range of E and its test of M. -/
def Path.SelectedBy (src : Quad) : Path → Prop
  | .zero => (srcExponent src).toNat = 0 ∧ (srcMantissa src).toNat = 0
  | .inf => (srcExponent src).toNat = 0x7FFF ∧ (srcMantissa src).toNat = 0
  | .nan => (srcExponent src).toNat = 0x7FFF ∧ (srcMantissa src).toNat ≠ 0
  | .subnSrc => (srcExponent src).toNat = 0 ∧ (srcMantissa src).toNat ≠ 0
  | .ovf => 0x43FF ≤ (srcExponent src).toNat ∧ (srcExponent src).toNat ≤ 0x7FFE
  | .norm => 0x3C01 ≤ (srcExponent src).toNat ∧ (srcExponent src).toNat ≤ 0x43FE
  | .sub => 0x3BCC ≤ (srcExponent src).toNat ∧ (srcExponent src).toNat ≤ 0x3C00
  | .flush => 1 ≤ (srcExponent src).toNat ∧ (srcExponent src).toNat ≤ 0x3BCB

/-- The instruction of a path with the fields of an operand. -/
def Path.instrOf (src : Quad) : Path → Instr
  | .zero => .narrowZero (srcSign src)
  | .inf => .narrowInf (srcSign src)
  | .nan => .narrowNan (srcSign src) (srcMantissa src)
  | .subnSrc => .narrowSubnSrc (srcSign src) (srcMantissa src)
  | .ovf => .narrowOvf (srcSign src) (srcExponent src) (srcMantissa src)
  | .norm => .narrowNorm (srcSign src) (srcExponent src) (srcMantissa src)
  | .sub => .narrowSub (srcSign src) (srcExponent src) (srcMantissa src)
  | .flush => .narrowFlush (srcSign src) (srcExponent src) (srcMantissa src)

variable {src : Quad} {p : Path}

@[simp] theorem Path.instrOf_path? (src : Quad) (p : Path) : (p.instrOf src).path? = some p := by
  cases p <;> rfl

/-- The map's line for a path is the constraint of the path's instruction. -/
theorem Path.SelectedBy.wellFormed (h : p.SelectedBy src) : (p.instrOf src).wellFormed = true := by
  cases p with
  | zero => rfl
  | inf => rfl
  | nan | subnSrc => exact bne_iff_ne.mpr (mt (srcMantissa_eq_zero_iff src).mp h.2)
  | ovf | norm | sub | flush =>
    obtain ⟨hlo, hhi⟩ := h
    simp only [instrOf, Instr.wellFormed, decide_eq_true_eq, Config.srcExpOnes_eq, Config.eOvf_eq,
      Config.eUnder_eq, Config.eFlush_eq]
    omega

/-- The fields that a path's instruction fixes are those of the operands that select the path. -/
theorem Path.SelectedBy.encode_instrOf (h : p.SelectedBy src) : encode (p.instrOf src) = src := by
  have hword {e : SrcExp} {m : SrcMant} (he : srcExponent src = e) (hm : srcMantissa src = m) :
      srcWord (srcSign src) e m = src := by rw [← he, ← hm, srcWord_fields]
  cases p with
  | zero => exact hword ((srcExponent_eq_zero_iff src).mpr h.1) ((srcMantissa_eq_zero_iff src).mpr h.2)
  | inf => exact hword ((srcExponent_eq_ones_iff src).mpr h.1) ((srcMantissa_eq_zero_iff src).mpr h.2)
  | nan => exact hword ((srcExponent_eq_ones_iff src).mpr h.1) rfl
  | subnSrc => exact hword ((srcExponent_eq_zero_iff src).mpr h.1) rfl
  | ovf | norm | sub | flush => exact hword rfl rfl

/-- An operand that meets a path's line decodes to the path's instruction, since it is that instruction's
word. -/
theorem Path.SelectedBy.decodeOperand_eq (h : p.SelectedBy src) : decodeOperand src = p.instrOf src :=
  calc decodeOperand src
    _ = decodeOperand (encode (p.instrOf src)) := by rw [h.encode_instrOf]
    _ = p.instrOf src := decodeOperand_encode h.wellFormed (by simp)

/-- The map is total: every operand meets a line of it (R62, R63). -/
theorem exists_path_selectedBy (src : Quad) : ∃ p : Path, p.SelectedBy src := by
  have hm : srcMantissa src ≠ 0 → (srcMantissa src).toNat ≠ 0 := mt (srcMantissa_eq_zero_iff src).mpr
  rcases decodeOperand_cases src with ⟨he, h, -⟩ | ⟨he, h, -⟩ | ⟨he, h, -⟩ | ⟨he, h, -⟩ |
    ⟨hlo, hhi, -⟩ | ⟨hlo, hhi, -⟩ | ⟨hlo, hhi, -⟩ | ⟨hlo, hhi, -⟩
  · exact ⟨.zero, he, (srcMantissa_eq_zero_iff src).mp h⟩
  · exact ⟨.subnSrc, he, hm h⟩
  · exact ⟨.inf, he, (srcMantissa_eq_zero_iff src).mp h⟩
  · exact ⟨.nan, he, hm h⟩
  · exact ⟨.ovf, hlo, hhi⟩
  · exact ⟨.norm, hlo, hhi⟩
  · exact ⟨.sub, hlo, hhi⟩
  · exact ⟨.flush, hlo, hhi⟩

/-- The decoder takes exactly the path whose line the operand meets. -/
theorem decodeOperand_path?_eq_some_iff (src : Quad) (p : Path) :
    (decodeOperand src).path? = some p ↔ p.SelectedBy src := by
  refine ⟨fun h => ?_, fun h => by rw [h.decodeOperand_eq, Path.instrOf_path?]⟩
  obtain ⟨q, hq⟩ := exists_path_selectedBy src
  rw [hq.decodeOperand_eq, Path.instrOf_path?, Option.some.injEq] at h
  exact h ▸ hq

/-- The lines of the map exclude one another. -/
theorem Path.SelectedBy.unique {q : Path} (hp : p.SelectedBy src) (hq : q.SelectedBy src) : p = q := by
  rw [← decodeOperand_path?_eq_some_iff] at hp hq
  exact Option.some.inj (hp.symm.trans hq)

/-- The map reads E and M alone; the sign takes no part. -/
theorem Path.selectedBy_congr {a b : Quad} (he : srcExponent a = srcExponent b)
    (hm : srcMantissa a = srcMantissa b) : p.SelectedBy a ↔ p.SelectedBy b := by
  cases p <;> simp only [SelectedBy, he, hm]

/-- The operand with the other sign selects the same path. -/
theorem Path.selectedBy_xor_signMask_iff :
    p.SelectedBy (src ^^^ 0x80000000000000000000000000000000#128) ↔ p.SelectedBy src := by
  rw [xor_signMask]
  exact selectedBy_congr (srcExponent_srcWord _ _ _) (srcMantissa_srcWord _ _ _)

end Sys2Proof
end

section
/-! Encoding and decoding (spec/30_encoding.md R56, R62, R63): each undoes the other. -/

namespace Sys2Proof

/-- Settles O1: the decoder is run on the eight words. -/
theorem specWordsDecodeToTheirRows : Obligations.SpecWordsDecodeToTheirRows := by
  unfold Obligations.SpecWordsDecodeToTheirRows
  decide

/-- Settles O4: an operand decodes to the instruction of the path it selects, whose word it is. -/
theorem encodeOfDecodeIsTheOperand : Obligations.EncodeOfDecodeIsTheOperand := by
  unfold Obligations.EncodeOfDecodeIsTheOperand
  intro src
  obtain ⟨p, hp⟩ := exists_path_selectedBy src
  rw [hp.decodeOperand_eq]
  exact ⟨hp.encode_instrOf, hp.wellFormed, by simp⟩

/-- Settles O5: a well-formed instruction's fields select its own row again. -/
theorem decodeOfEncodeIsTheInstruction : Obligations.DecodeOfEncodeIsTheInstruction := by
  unfold Obligations.DecodeOfEncodeIsTheInstruction
  exact ⟨fun _ hwf hpath => decodeOperand_encode hwf hpath, fun _ => rfl⟩

/-- Settles O6: the decoder follows the map, and the map's masks say what its ranges say. -/
theorem operandSelectsExactlyOnePath : Obligations.OperandSelectsExactlyOnePath := by
  unfold Obligations.OperandSelectsExactlyOnePath
  intro src
  have hpath := decodeOperand_path?_eq_some_iff src
  refine ⟨hpath .zero, hpath .inf, hpath .nan, hpath .subnSrc, hpath .ovf, hpath .norm, hpath .sub,
    hpath .flush, ?_, ?_, ?_, ?_, ?_⟩
  · rw [and_codeMask_eq_zero_iff]
    exact hpath .zero
  · rw [and_codeMask_eq_ones_iff]
    exact hpath .inf
  · rw [and_exponentMask_eq_ones_iff]
    exact hpath .nan
  · rw [and_exponentMask_eq_zero_iff]
    exact hpath .subnSrc
  · obtain ⟨p, hp⟩ := exists_path_selectedBy src
    rw [(hpath p).mpr hp]
    exact (decodeOperand_path?_eq_some_iff _ p).mpr (Path.selectedBy_xor_signMask_iff.mpr hp)

end Sys2Proof
end

section
/-! The opcode table (spec/30_encoding.md R66): a path row's constraint is its path's line of the map, and
the row's mask and match follow from it. A word of the table, presented on the port (log 5, 15). -/

namespace Sys2Proof

variable {src : Quad} {r : PathRow}

/-- A path row's constraint is its path's line of R62. -/
theorem constraintHolds_iff (hr : r ∈ pathRows) :
    r.constraintHolds src = true ↔ r.path.SelectedBy src := by
  fin_cases hr <;>
    simp only [PathRow.constraintHolds, Bool.and_eq_true, decide_eq_true_eq, MantissaTest.holds, beq_iff_eq,
      bne_iff_ne, ne_eq, srcMantissa_eq_zero_iff, and_true, Path.SelectedBy] <;>
    omega

/-- A path row's mask and match ask no more than its constraint. -/
theorem maskHolds_of_selectedBy (hr : r ∈ pathRows) (h : r.path.SelectedBy src) :
    r.maskHolds src = true := by
  rw [PathRow.maskHolds, beq_iff_eq]
  fin_cases hr
  · exact (and_codeMask_eq_zero_iff src).mpr h
  · exact (and_codeMask_eq_ones_iff src).mpr h
  · exact (and_exponentMask_eq_ones_iff src).mpr h.1
  · exact (and_exponentMask_eq_zero_iff src).mpr h.1
  all_goals exact BitVec.and_zero

/-- A path row selects the operands that meet its path's line. -/
theorem selects_iff (hr : r ∈ pathRows) : r.selects src = true ↔ r.path.SelectedBy src := by
  rw [PathRow.selects, Bool.and_eq_true, constraintHolds_iff hr]
  exact and_iff_right_of_imp (maskHolds_of_selectedBy hr)

/-- Every path has a row. -/
theorem exists_pathRow (p : Path) : ∃ r ∈ pathRows, r.path = p := by
  cases p <;> decide

/-- No path has two rows. -/
theorem pathRow_unique : ∀ r ∈ pathRows, ∀ r' ∈ pathRows, r.path = r'.path → r = r' := by
  decide

/-- The first row that selects an operand names the path whose line the operand meets. -/
theorem tablePath_of_selectedBy {p : Path} (h : p.SelectedBy src) : tablePath src = some p := by
  obtain ⟨r, hr, rfl⟩ := exists_pathRow p
  have hsome : (pathRows.find? (·.selects src)).isSome = true :=
    List.find?_isSome.mpr ⟨r, hr, (selects_iff hr).mpr h⟩
  obtain ⟨r', hfind⟩ := Option.isSome_iff_exists.mp hsome
  have hselected : r'.path.SelectedBy src :=
    (selects_iff (List.mem_of_find?_eq_some hfind)).mp
      (List.find?_some (p := (PathRow.selects · src)) hfind)
  rw [tablePath, hfind, Option.map_some, hselected.unique h]

/-- Settles O7: table and decoder both follow R62's map, in which each operand meets one line. -/
theorem opcodeTableDecodesAsTheDecoder : Obligations.OpcodeTableDecodesAsTheDecoder := by
  unfold Obligations.OpcodeTableDecodesAsTheDecoder
  intro src
  obtain ⟨p, hp⟩ := exists_path_selectedBy src
  obtain ⟨r, hr, rfl⟩ := exists_pathRow p
  refine ⟨?_, ⟨r, hr, (selects_iff hr).mpr hp, fun r' hr' h' => ?_⟩, fun r' hr' h' => ?_⟩
  · rw [tablePath_of_selectedBy hp, (decodeOperand_path?_eq_some_iff src _).mpr hp]
  · exact pathRow_unique r' hr' r hr (((selects_iff hr').mp h').unique hp)
  · exact (selects_iff hr').mpr ((constraintHolds_iff hr').mp h')

/-- The bits of a table word's operand (log 15). -/
theorem operandOfTableWord_getLsbD (nbits w : Nat) {i : Nat} (hi : i < 128) :
    (operandOfTableWord nbits w).getLsbD i = (decide (i < nbits) && w.testBit i) := by
  rw [operandOfTableWord, BitVec.getLsbD_ofNat, Nat.testBit_mod_two_pow, decide_eq_true hi, Bool.true_and]

/-- Settles O9: presenting a table word presents its operand, and a step decodes the operand on `src`. -/
theorem tableWordIsRunByTheNextStep : Obligations.TableWordIsRunByTheNextStep := by
  unfold Obligations.TableWordIsRunByTheNextStep
  intro s nbits w hbits
  refine ⟨fun i hi => ?_, Machine.settled_present s _, _, if_pos hbits, rfl⟩
  rw [Machine.State.withFetchWord_src, operandOfTableWord_getLsbD nbits w hi]

end Sys2Proof
end

section
/-! The operation and its path rows (spec/40_narrow_top.md R81, R82), and the single addition that gives the
result where the rounder runs (R85). -/

namespace Sys2Proof.Machine

variable {limit : Nat} {src : Quad}

/-- Settles O21: the row that an operand selects drives the operand's result, as the whole operation does. -/
theorem narrowIsThePathRowOfItsOperand : Obligations.NarrowIsThePathRowOfItsOperand := by
  unfold Obligations.NarrowIsThePathRowOfItsOperand
  exact fun src s => (exec_decodeOperand src s).symm

/-- The Finite path is the engine and then the packer (R82). -/
theorem narrowWith_finite (h : srcClass src = .normal ∨ srcClass src = .subnormal) :
    narrowWith limit src = packEngine (srcSign src) (engine limit (decompose src)) := by
  rw [srcClass] at h
  rcases h with h | h <;> simp [narrowWith, pack, decompose, h]

/-- Where overflow before rounding is excluded, the exponent field is the rebiased exponent clamped at 0
(R107). -/
theorem expField0_toNat {d : Int} (h : d < 2047) :
    (expField0 d).toNat = if d ≤ 0 then 0 else d.toNat := by
  split
  · next hd => rw [expField0_of_nonpos hd]; rfl
  · next hd => exact expField0_toNat_of_pos (by omega) h

theorem expField0_toNat_le {d : Int} (h : d < 2047) : (expField0 d).toNat ≤ 2046 := by
  rw [expField0_toNat h]
  split <;> omega

/-- Where the engine rounds, the rounder and stage B have run, on the exponent field of a finite code. -/
theorem engine_eq_rounded {d : Decomposed} {a : StageA} {e0 : DstExp} {r : Rounded} {b : StageB}
    (h : engine limit d = .rounded a e0 r b) :
    e0.toNat ≤ 2046 ∧ b = stageB e0 r.carry ∧ ∃ sig k, r = rounder sig k := by
  rcases engine_cases limit d with ⟨-, he⟩ | ⟨-, -, he⟩ | ⟨hd, -, he⟩ <;> rw [he] at h <;> cases h
  exact ⟨expField0_toNat_le hd, rfl, _, _, rfl⟩

/-- The sum of R85 is the finished fields side by side, the carry in the exponent (R109, R123). -/
theorem oneAdder_eq_fields (e0 : DstExp) (sig : Significand) (k : Nat) :
    e0.toNat * 2 ^ 52 + (rounder sig k).truncatedMantissa.toNat + (rounder sig k).roundUp.toNat
      = (expField1 e0 (rounder sig k).carry).toNat * 2 ^ 52 + (rounder sig k).mantField.toNat := by
  rw [expField1_toNat, add_mul, add_assoc, add_assoc, rounder_carry_mantField]

/-- From the exponent field of a finite code the sum of R85 goes no further than the infinity pattern. -/
theorem oneAdder_le {e0 : DstExp} (h : e0.toNat ≤ 2046) (sig : Significand) (k : Nat) :
    e0.toNat * 2 ^ 52 + (rounder sig k).truncatedMantissa.toNat + (rounder sig k).roundUp.toNat
      ≤ 2047 * 2 ^ 52 := by
  have ht := (rounder sig k).truncatedMantissa.isLt
  have hu := (rounder sig k).roundUp.isLt
  omega

/-- Overflow after rounding is the infinity pattern in the sum of R85: beyond it the sum cannot go. -/
theorem stageB_overflowPost_iff {e0 : DstExp} (h : e0.toNat ≤ 2046) (sig : Significand) (k : Nat) :
    (stageB e0 (rounder sig k).carry).overflowPost = true ↔
      e0.toNat * 2 ^ 52 + (rounder sig k).truncatedMantissa.toNat + (rounder sig k).roundUp.toNat
        = 0x7FF0000000000000 := by
  have hle := oneAdder_le h sig k
  have hm := (rounder sig k).mantField.isLt
  rw [oneAdder_eq_fields] at hle ⊢
  simp only [stageB, overflowPost_eq, decide_eq_true_eq]
  omega

/-- Settles O37: the packer's word is one addition, in which the carry that overflows gives the infinity
pattern. -/
theorem oneAdderGivesTheResult : Obligations.OneAdderGivesTheResult := by
  unfold Obligations.OneAdderGivesTheResult
  intro src a e0 r b hclass hengine
  obtain ⟨he0, rfl, sig, k, rfl⟩ := engine_eq_rounded hengine
  refine ⟨oneAdder_le he0 sig k, ?_, stageB_overflowPost_iff he0 sig k⟩
  rw [narrow, narrowWith_finite hclass, hengine]
  exact roundAndPack_eq _ e0 sig k he0

end Sys2Proof.Machine
end

section
/-! The pseudocode over unbounded integers (spec/40_narrow_top.md R80): on each path the packer's word is
the number that the pseudocode computes, at every flush limit. -/

namespace Sys2Proof.Machine

variable {limit : Nat} {src : Quad}

theorem packZero_toNat (s : Bit) : (packZero s).toNat = s.toNat * 2 ^ 63 := by
  rw [packZero_eq, signCode_toNat _ _ (by omega), add_zero]

theorem packInfinity_toNat (s : Bit) : (packInfinity s).toNat = s.toNat * 2 ^ 63 + 0x7FF * 2 ^ 52 := by
  rw [packInfinity_eq, signCode_toNat _ _ (by omega)]
  rfl

theorem packNan_toNat (s : Bit) (m : SrcMant) :
    (packNan s m).toNat
      = s.toNat * 2 ^ 63 + 0x7FF * 2 ^ 52 + ((m.toNat / 2 ^ 60) ||| 0x8000000000000) := by
  have hm := m.isLt
  have hquiet : Config.dstQuiet.toNat = 0x8000000000000 := by decide
  rw [packNan, dstWord_toNat, dstExpOnesField_toNat, BitVec.toNat_or, BitVec.extractLsb'_toNat, hquiet,
    Nat.shiftRight_eq_div_pow, Nat.mod_eq_of_lt (by omega : m.toNat / 2 ^ 60 < 2 ^ 52)]

theorem roundAndPack_toNat (s : Bit) {e0 : DstExp} (h : e0.toNat ≤ 2046) (sig : Significand) (k : Nat) :
    (roundAndPack s e0 sig k).toNat = s.toNat * 2 ^ 63 + (e0.toNat * 2 ^ 52
      + (rounder sig k).truncatedMantissa.toNat + (rounder sig k).roundUp.toNat) := by
  have hle := oneAdder_le h sig k
  rw [roundAndPack_eq s e0 sig k h, signCode_toNat _ _ (by omega)]

/-- The magnitude code of the Finite path (R135), from the rebiased exponent and the significand: where the
rounder runs it is the sum of R85. -/
def finiteCode (limit : Nat) (dest : Int) (sig : Significand) : Nat :=
  if 2047 ≤ dest then 0x7FF * 2 ^ 52
  else if flush limit (under dest) (extraShift dest) then 0
  else (expField0 dest).toNat * 2 ^ 52 + (rounder sig (extraShift dest)).truncatedMantissa.toNat
    + (rounder sig (extraShift dest)).roundUp.toNat

/-- The engine and the packer put `finiteCode` under the sign. -/
theorem packEngine_engine_toNat (s : Bit) (limit : Nat) (d : Decomposed) :
    (packEngine s (engine limit d)).toNat = s.toNat * 2 ^ 63
      + finiteCode limit (destExponent d.cls d.exponentField) (significand d.cls d.mantissaField) := by
  rcases engine_cases limit d with ⟨hd, he⟩ | ⟨hd, hf, he⟩ | ⟨hd, hf, he⟩ <;> rw [he, finiteCode]
  · rw [if_pos hd, packEngine, packOverflow_eq, ← packInfinity_eq, packInfinity_toNat]
  · rw [if_neg (by omega), if_pos hf, packEngine, packFlush_eq, ← packZero_eq, packZero_toNat, add_zero]
  · rw [if_neg (by omega), if_neg (by simp [hf])]
    exact roundAndPack_toNat s (expField0_toNat_le hd) _ _

/-- The pseudocode's sign digit is the operand's sign (R90). -/
theorem srcSign_eq_digit (src : Quad) : src.toNat / 2 ^ 127 % 2 = (srcSign src).toNat := by
  have h := (srcSign src).isLt
  rw [srcSign_toNat] at h ⊢
  omega

theorem narrowPseudocode_zero (he : (srcExponent src).toNat = 0) (hm : (srcMantissa src).toNat = 0) :
    narrowPseudocode limit src.toNat = (srcSign src).toNat * 2 ^ 63 := by
  rw [narrowPseudocode, srcSign_eq_digit, ← srcExponent_toNat, ← srcMantissa_toNat]
  exact if_pos ⟨he, hm⟩

theorem narrowPseudocode_infinity (he : (srcExponent src).toNat = 0x7FFF)
    (hm : (srcMantissa src).toNat = 0) :
    narrowPseudocode limit src.toNat = (srcSign src).toNat * 2 ^ 63 + 0x7FF * 2 ^ 52 := by
  rw [narrowPseudocode, srcSign_eq_digit, ← srcExponent_toNat, ← srcMantissa_toNat]
  exact (if_neg (by omega)).trans (if_pos ⟨he, hm⟩)

theorem narrowPseudocode_nan (he : (srcExponent src).toNat = 0x7FFF)
    (hm : (srcMantissa src).toNat ≠ 0) :
    narrowPseudocode limit src.toNat = (srcSign src).toNat * 2 ^ 63 + 0x7FF * 2 ^ 52
      + (((srcMantissa src).toNat / 2 ^ 60) ||| 0x8000000000000) := by
  rw [narrowPseudocode, srcSign_eq_digit, ← srcExponent_toNat, ← srcMantissa_toNat]
  exact (if_neg (by omega)).trans ((if_neg (by omega)).trans (if_pos he))

/-- The fields of an operand on the Finite path. -/
theorem srcClass_finite_cases (h : srcClass src = .normal ∨ srcClass src = .subnormal) :
    ((srcExponent src).toNat ≠ 0 ∧ (srcExponent src).toNat ≠ 0x7FFF ∧ srcClass src = .normal) ∨
    ((srcExponent src).toNat = 0 ∧ (srcMantissa src).toNat ≠ 0 ∧ srcClass src = .subnormal) := by
  rw [srcClass] at h ⊢
  rcases classify_cases (srcExponent src) (srcMantissa src) with
    ⟨-, -, hc⟩ | ⟨he, hm, hc⟩ | ⟨-, -, hc⟩ | ⟨-, -, hc⟩ | hnormal
  · simp [hc] at h
  · exact .inr ⟨he, mt (srcMantissa_eq_zero_iff src).mpr hm, hc⟩
  · simp [hc] at h
  · simp [hc] at h
  · exact .inl hnormal

section
variable {c : FpClass} {e : SrcExp} (hc : c = .normal ↔ e.toNat ≠ 0)
include hc

/-- On the Finite path the pseudocode reads the class off the exponent code (R101, R102). -/
theorem destExponent_eq_ite :
    destExponent c e = (if e.toNat = 0 then 1 else (e.toNat : Int)) - 16383 + 1023 := by
  simp only [destExponent, trueExponent, hc, Config.srcBias_eq, Config.dstBias_eq, ite_not]
  rfl

/-- On the Finite path the implicit bit is there for a nonzero exponent code (R104). -/
theorem significand_toNat_eq_ite (m : SrcMant) :
    (significand c m).toNat = (if e.toNat = 0 then 0 else 2 ^ 112) + m.toNat := by
  simp only [significand_toNat, hc, ite_not]

end

theorem extraShift_eq_ite (d : Int) : extraShift d = if d ≤ 0 then (1 - d).toNat else 0 := by
  simp only [extraShift, under, decide_eq_true_eq]

theorem flush_under_iff {d : Int} {k : Nat} : flush limit (under d) k = true ↔ d ≤ 0 ∧ limit < k := by
  simp only [flush_eq, under, Bool.and_eq_true, decide_eq_true_eq]

/-- The pseudocode's rounding decision is the rounder's (R118 to R122). -/
theorem rounder_roundUp_toNat_eq_bits (sig : Significand) (k : Nat) :
    (rounder sig k).roundUp.toNat =
      if sig.toNat / 2 ^ (60 + k - 1) % 2 = 1 ∧
        ((if sig.toNat % 2 ^ (60 + k - 1) = 0 then 0 else 1) = 1 ∨ sig.toNat / 2 ^ (60 + k) % 2 = 1)
      then 1 else 0 := by
  rw [show 60 + k - 1 = 59 + k by omega, ← rounder_roundBit_toNat, ← rounder_stickyBit_toNat,
    ← rounder_kept_toNat, ← rounder_lsb_toNat]
  exact roundUpOf_toNat _ _ _

/-- The pseudocode's last two lines are the sum of R85: a carry that overflows leaves the infinity
pattern. -/
theorem packedField_eq_add {field0 inc : Nat} (hfield : field0 ≤ 2046) (hinc : inc ≤ 2 ^ 52) (sign : Nat) :
    (if 2047 ≤ field0 + inc / 2 ^ 52 then sign * 2 ^ 63 + 0x7FF * 2 ^ 52
      else sign * 2 ^ 63 + (field0 + inc / 2 ^ 52) * 2 ^ 52 + inc % 2 ^ 52)
      = sign * 2 ^ 63 + (field0 * 2 ^ 52 + inc) := by
  split <;> omega

/-- On the Finite path the pseudocode puts `finiteCode` under the sign. -/
theorem narrowPseudocode_finite (h : srcClass src = .normal ∨ srcClass src = .subnormal) :
    narrowPseudocode limit src.toNat = (srcSign src).toNat * 2 ^ 63
      + finiteCode limit (destExponent (srcClass src) (srcExponent src))
          (significand (srcClass src) (srcMantissa src)) := by
  have hfields := srcClass_finite_cases h
  have hc : srcClass src = .normal ↔ (srcExponent src).toNat ≠ 0 := by
    rcases hfields with ⟨he, -, hc⟩ | ⟨he, -, hc⟩ <;> simp [he, hc]
  rw [narrowPseudocode, srcSign_eq_digit, ← srcExponent_toNat, ← srcMantissa_toNat]
  refine (if_neg (by omega)).trans ((if_neg (by omega)).trans ((if_neg (by omega)).trans ?_))
  dsimp only [-Nat.reducePow, -Nat.reduceMul]
  rw [← destExponent_eq_ite hc, ← significand_toNat_eq_ite hc, finiteCode]
  generalize destExponent (srcClass src) (srcExponent src) = d
  generalize significand (srcClass src) (srcMantissa src) = sig
  rw [← extraShift_eq_ite]
  by_cases hov : 2047 ≤ d
  · rw [if_pos hov, if_pos hov]
  rw [if_neg hov, if_neg hov]
  by_cases hfl : d ≤ 0 ∧ limit < extraShift d
  · rw [if_pos hfl, if_pos (flush_under_iff.mpr hfl), add_zero]
  rw [if_neg hfl, if_neg (mt flush_under_iff.mp hfl)]
  have hd : d < 2047 := by omega
  rw [← expField0_toNat hd, ← rounder_roundUp_toNat_eq_bits, ← rounder_kept_toNat,
    ← rounder_truncatedMantissa_toNat, packedField_eq_add (expField0_toNat_le hd) (by omega), add_assoc]

/-- The sub-blocks in a line compute the pseudocode's number, at every flush limit. -/
theorem narrowWith_toNat (limit : Nat) (src : Quad) :
    (narrowWith limit src).toNat = narrowPseudocode limit src.toNat := by
  have hfinite (h : srcClass src = .normal ∨ srcClass src = .subnormal) :
      (narrowWith limit src).toNat = narrowPseudocode limit src.toNat := by
    rw [narrowWith_finite h, packEngine_engine_toNat, narrowPseudocode_finite h]
    rfl
  have hm := srcMantissa_eq_zero_iff src
  rcases classify_cases (srcExponent src) (srcMantissa src) with
    ⟨he, hm0, hc⟩ | ⟨-, -, hc⟩ | ⟨he, hm0, hc⟩ | ⟨he, hm0, hc⟩ | ⟨-, -, hc⟩
  · rw [narrowWith_zero hc, packZero_toNat, narrowPseudocode_zero he (hm.mp hm0)]
  · exact hfinite (.inr hc)
  · rw [narrowWith_infinity hc, packInfinity_toNat, narrowPseudocode_infinity he (hm.mp hm0)]
  · rw [narrowWith_nan hc, packNan_toNat, narrowPseudocode_nan he (mt hm.mpr hm0)]
  · exact hfinite (.inl hc)

/-- Settles O20: an evaluation drives the operation's word, which is the pseudocode's number. -/
theorem narrowIsThePseudocode : Obligations.NarrowIsThePseudocode := by
  unfold Obligations.NarrowIsThePseudocode
  exact fun src s => ⟨complete_eq_next (narrow src) s, narrowWith_toNat 53 src⟩

end Sys2Proof.Machine
end

section
/-! `format_decomposer`: the class that it answers, as conditions on the exponent field and the mantissa field
(spec/41_format_decomposer.md). -/

namespace Sys2Proof.Machine

theorem decompose_cls (src : Quad) :
    (decompose src).cls = classify (srcExponent src) (srcMantissa src) := rfl

/-- Settles O3: every operand meets the condition of its own class (`classify_cases`), and the five
conditions exclude each other. -/
theorem classFollowsExponentAndMantissa : Obligations.ClassFollowsExponentAndMantissa := by
  unfold Obligations.ClassFollowsExponentAndMantissa
  intro src
  rw [decompose_cls]
  have hclass := classify_cases (srcExponent src) (srcMantissa src)
  simp only [ne_eq, srcMantissa_eq_zero_iff] at hclass
  rcases hclass with
    ⟨he, hm, hc⟩ | ⟨he, hm, hc⟩ | ⟨he, hm, hc⟩ | ⟨he, hm, hc⟩ | ⟨hzero, hones, hc⟩
  · simp [hc, he, hm]
  · simp [hc, he, hm]
  · simp [hc, he, hm]
  · simp [hc, he, hm]
  · simp [hc, hzero, hones]

end Sys2Proof.Machine
end

section
/-! `exponent_rebias_detector`, stage A (spec/42_exponent_rebias_detector.md R101 to R107): the exponents, the
comparisons with them, the extra shift and the exponent field, as conditions on the rebiased exponent and on
the source field. -/

namespace Sys2Proof.Machine

variable {e : SrcExp} {d : Int}

theorem trueExponent_normal (e : SrcExp) : trueExponent .normal e = (e.toNat : Int) - 16383 := by
  simp [trueExponent]

/-- Any class but Normal has the exponent of code 1 (R101). -/
theorem trueExponent_of_ne_normal {c : FpClass} (h : c ≠ .normal) (e : SrcExp) :
    trueExponent c e = -16382 := by
  simp [trueExponent, h]

theorem destExponent_subnormal (e : SrcExp) : destExponent .subnormal e = -15359 :=
  destExponent_of_ne_normal (by decide) e

theorem overflowPre_iff : overflowPre d = true ↔ 2047 ≤ d := by
  rw [overflowPre_eq, decide_eq_true_eq]

theorem overflowPre_eq_false_iff : overflowPre d = false ↔ d < 2047 := by
  rw [overflowPre_eq, decide_eq_false_iff_not, not_le]

theorem overflowPre_normal_iff : overflowPre (destExponent .normal e) = true ↔ 0x43FF ≤ e.toNat := by
  rw [overflowPre_iff, destExponent_normal]
  omega

theorem under_iff : under d = true ↔ d ≤ 0 := by
  rw [under, decide_eq_true_eq]

theorem under_normal_iff : under (destExponent .normal e) = true ↔ e.toNat ≤ 0x3C00 := by
  rw [under_iff, destExponent_normal]
  omega

/-- The extra shift of a Normal in terms of the source field, 0 where nothing is denormalised (R105). -/
theorem extraShift_normal (e : SrcExp) : extraShift (destExponent .normal e) = 15361 - e.toNat := by
  rw [extraShift_eq_ite, destExponent_normal]
  split <;> omega

theorem extraShift_subnormal (e : SrcExp) : extraShift (destExponent .subnormal e) = 15360 := by
  rw [destExponent_subnormal, extraShift_of_nonpos (by decide)]
  rfl

/-- Settles O22: the class says whether the bias is taken from the field or from code 1. -/
theorem trueExponentRemovesSourceBias : Obligations.TrueExponentRemovesSourceBias := by
  unfold Obligations.TrueExponentRemovesSourceBias
  refine ⟨trueExponent_of_ne_normal (by decide), trueExponent_normal, fun e hlo hhi => ?_⟩
  rw [trueExponent_normal]
  omega

/-- Settles O23: the bias of the destination is added to the true exponent. -/
theorem destExponentAddsDestinationBias : Obligations.DestExponentAddsDestinationBias := by
  unfold Obligations.DestExponentAddsDestinationBias
  refine ⟨fun c e => ?_, destExponent_normal, destExponent_subnormal, fun e hlo hhi => ?_⟩
  · rw [destExponent, Config.dstBias_eq]
    rfl
  · rw [destExponent_normal]
    omega

/-- Settles O24: a Normal whose field is past the threshold takes the packer's overflow rule. -/
theorem overflowBeforeRoundingAtAllOnesCode : Obligations.OverflowBeforeRoundingAtAllOnesCode := by
  unfold Obligations.OverflowBeforeRoundingAtAllOnesCode
  refine ⟨fun d => overflowPre_iff, fun e => overflowPre_normal_iff, fun src hclass hov => ?_⟩
  exact narrowWith_overflow hclass (overflowPre_normal_iff.mp hov)

/-- Settles O25: each clause is a case of the extra shift's law, on one side of `destExponent = 0`. -/
theorem extraShiftDenormalises : Obligations.ExtraShiftDenormalises := by
  unfold Obligations.ExtraShiftDenormalises
  refine ⟨fun d => under_iff, fun d hd => ?_, fun d hd => extraShift_of_pos hd, fun d => ?_, fun e => ?_,
    fun e => under_normal_iff, fun e _ => extraShift_normal e, fun e he => ?_⟩
  · rw [extraShift_of_nonpos hd]
    omega
  · rw [under_iff, overflowPre_iff]
    omega
  · exact ⟨under_iff.mpr (by rw [destExponent_subnormal]; decide), extraShift_subnormal e⟩
  · rw [extraShift_normal]
    omega

/-- Settles O28: the field is the rebiased exponent clamped at 0. -/
theorem exponentFieldClampsAtZero : Obligations.ExponentFieldClampsAtZero := by
  unfold Obligations.ExponentFieldClampsAtZero
  intro d hov
  have hd : d < 2047 := overflowPre_eq_false_iff.mp hov
  refine ⟨fun hnonpos => ?_, fun hpos => ?_, expField0_toNat_le hd⟩
  · rw [expField0_toNat hd, if_pos hnonpos]
  · rw [expField0_toNat_of_pos hpos hd, Int.toNat_of_nonneg hpos.le]

end Sys2Proof.Machine
end

section
/-! `exponent_rebias_detector`, stage B (spec/42_exponent_rebias_detector.md R109, R110): the carry in the
exponent field, and the operands on which it overflows. -/

namespace Sys2Proof.Machine

/-- From the field of a finite code, only the carry out of the largest one reaches 2047 (R110). -/
theorem stageB_overflowPost_iff_carry {e0 : DstExp} (h : e0.toNat ≤ 2046) (carry : Bit) :
    (stageB e0 carry).overflowPost = true ↔ e0.toNat = 2046 ∧ carry = 1#1 := by
  have hcarry := carry.isLt
  simp only [stageB, overflowPost_eq, decide_eq_true_eq, expField1_toNat, bit_eq_one_iff]
  omega

/-- On the operands that are rounded, only the highest exponent code has the field 2046. -/
theorem expField0_normal_eq_maxFinite_iff {e : SrcExp} (h : e.toNat ≤ 0x43FE) :
    (expField0 (destExponent .normal e)).toNat = 2046 ↔ e.toNat = 0x43FE := by
  rw [destExponent_normal, expField0_toNat (by omega)]
  split <;> omega

/-- Without an extra shift a Normal carries exactly when the 52 kept field bits and the round bit are all
ones: the last kept bit is then odd, so the round bit alone decides (R122, R123). -/
theorem carry_normal_iff (m : SrcMant) :
    (rounder (significand .normal m) 0).carry = 1#1 ↔ m.toNat / 2 ^ 59 = 2 ^ 53 - 1 := by
  have hm := m.isLt
  rw [bit_eq_one_iff, rounder_carry_toNat, rounder_mantInc_toNat, rounder_truncatedMantissa_toNat,
    rounder_kept_toNat, rounder_roundUp_toNat, significand_toNat, if_pos rfl]
  split <;> omega

/-- The Normals whose rounding overflows (R110): the carry matters at the highest exponent code alone, where
there is no extra shift. -/
theorem overflowPost_normal_iff {e : SrcExp} (h : e.toNat ≤ 0x43FE) (m : SrcMant) :
    (stageB (expField0 (destExponent .normal e))
        (rounder (significand .normal m) (extraShift (destExponent .normal e))).carry).overflowPost = true ↔
      e.toNat = 0x43FE ∧ m.toNat / 2 ^ 59 = 2 ^ 53 - 1 := by
  have hdest : destExponent .normal e < 2047 := by
    rw [destExponent_normal]
    omega
  rw [stageB_overflowPost_iff_carry (expField0_toNat_le hdest), expField0_normal_eq_maxFinite_iff h]
  refine and_congr_right fun he => ?_
  rw [extraShift_normal, he]
  exact carry_normal_iff m

/-- Settles O29: overflow by the carry needs the field 2046 and the carry, and each of the two is a condition
on one of the operand's fields. -/
theorem carryIncrementsTheExponentField : Obligations.CarryIncrementsTheExponentField := by
  unfold Obligations.CarryIncrementsTheExponentField
  exact ⟨fun e0 carry h => ⟨expField1_toNat e0 carry, stageB_overflowPost_iff_carry h carry⟩,
    fun e m _ hhi => overflowPost_normal_iff hhi m⟩

end Sys2Proof.Machine
end

section
/-! The significand (spec/42_exponent_rebias_detector.md R104, spec/30_encoding.md R61) and the exact value that
it stands for (R59). -/

namespace Sys2Proof.Machine

theorem significand_normal_toNat (m : SrcMant) : (significand .normal m).toNat = 2 ^ 112 + m.toNat :=
  significand_toNat .normal m

theorem significand_subnormal_toNat (m : SrcMant) : (significand .subnormal m).toNat = m.toNat :=
  (significand_toNat .subnormal m).trans (Nat.zero_add _)

/-- A fraction of 2^112 under an exponent is an integer under that exponent less 112. -/
theorem div_two_pow_mul_zpow (x : ℚ) (t : Int) :
    x / 2 ^ 112 * (2 : ℚ) ^ t = x * (2 : ℚ) ^ (t - 112) := by
  rw [zpow_sub₀ two_ne_zero, zpow_ofNat, div_mul_eq_mul_div, mul_div_assoc]

/-- The magnitude of a source word with a nonzero exponent code, as a Normal's significand and exponent. -/
theorem magnitude_srcFormat_normal {e : SrcExp} (h : e.toNat ≠ 0) (m : SrcMant) :
    magnitude Config.srcFormat e.toNat m.toNat
      = ((significand .normal m).toNat : ℚ) * (2 : ℚ) ^ (trueExponent .normal e - 112) := by
  rw [significand_normal_toNat, trueExponent_normal, ← div_two_pow_mul_zpow, magnitude, if_neg h]
  rw [Nat.cast_add, Nat.cast_pow, Nat.cast_ofNat, add_div, div_self (by positivity)]
  rfl

/-- The magnitude of a source word with exponent code 0, as a Subnormal's significand and exponent. -/
theorem magnitude_srcFormat_subnormal {e : SrcExp} (h : e.toNat = 0) (m : SrcMant) :
    magnitude Config.srcFormat e.toNat m.toNat
      = ((significand .subnormal m).toNat : ℚ) * (2 : ℚ) ^ (trueExponent .subnormal e - 112) := by
  rw [significand_subnormal_toNat, trueExponent_of_ne_normal (by decide), ← div_two_pow_mul_zpow, magnitude,
    if_pos h]
  rfl

/-- Settles O27: the class says which exponent codes the value's two formulas are for. -/
theorem significandReinstatesImplicitBit : Obligations.SignificandReinstatesImplicitBit := by
  unfold Obligations.SignificandReinstatesImplicitBit
  refine ⟨fun m => ?_, fun src hclass => ?_⟩
  · have hm := m.isLt
    rw [significand_normal_toNat, significand_subnormal_toNat]
    omega
  · rcases srcClass_finite_cases hclass with ⟨he, -, hc⟩ | ⟨he, -, hc⟩ <;> rw [hc, srcMagnitude]
    · exact magnitude_srcFormat_normal he _
    · exact magnitude_srcFormat_subnormal he _

end Sys2Proof.Machine
end

section
/-! The flush (spec/42_exponent_rebias_detector.md R106, R111): the operands it takes, its result, and that at
every limit from 53 it is a shortcut that changes no value (R126). -/

namespace Sys2Proof.Machine

variable {limit : Nat} {src : Quad}

/-! ## The operands that are flushed, and their result -/

theorem flush_iff {u : Bool} {k : Nat} : flush limit u k = true ↔ u = true ∧ limit < k := by
  rw [flush_eq, Bool.and_eq_true, decide_eq_true_eq]

theorem stageA_flush_normal_iff {d : Decomposed} (h : d.cls = .normal) :
    (stageA Config.flushLimit d).flush = true ↔ d.exponentField.toNat ≤ 0x3BCB := by
  rw [stageA, h, flush_iff, under_normal_iff, extraShift_normal, Config.flushLimit_eq]
  omega

/-- The extra shift of a Subnormal, 15360, is beyond this hardware's limit (R111). -/
theorem stageA_flush_subnormal {d : Decomposed} (h : d.cls = .subnormal) :
    (stageA Config.flushLimit d).flush = true := by
  rw [stageA, h, flush_iff, extraShift_subnormal, under_iff, destExponent_subnormal]
  decide

/-- A value to be flushed does not overflow before rounding, so the engine ends in the flush (R112). -/
theorem engine_eq_flush {d : Decomposed} (h : (stageA limit d).flush = true) :
    engine limit d = .flush (stageA limit d) (expField0 (destExponent d.cls d.exponentField)) := by
  rcases engine_cases limit d with ⟨hov, -⟩ | ⟨-, -, hengine⟩ | ⟨-, hflush, -⟩
  · obtain ⟨hnonpos, -⟩ := flush_under_iff.mp h
    omega
  · exact hengine
  · exact absurd (hflush.symm.trans h) Bool.false_ne_true

/-- The packer's flush rule gives signed zero (R141). -/
theorem narrow_of_flush (hclass : srcClass src = .normal ∨ srcClass src = .subnormal)
    (h : (stageA Config.flushLimit (decompose src)).flush = true) :
    narrow src = srcSign src ++ 0#11 ++ 0#52 := by
  rw [narrow, narrowWith_finite hclass, engine_eq_flush h]
  rfl

/-- Settles O26: the threshold in terms of the field is where a Normal's extra shift passes 53. -/
theorem flushBeyondTheFlushLimit : Obligations.FlushBeyondTheFlushLimit := by
  unfold Obligations.FlushBeyondTheFlushLimit
  exact ⟨fun u k => flush_iff, fun e m _ => stageA_flush_normal_iff rfl,
    fun src hclass h => narrow_of_flush hclass h⟩

/-- Settles O30: both kinds of tiny source are flushed, and a step drives the operand's result. -/
theorem tinySourcesAreFlushed : Obligations.TinySourcesAreFlushed := by
  unfold Obligations.TinySourcesAreFlushed
  intro src old htiny
  obtain ⟨hclass, hflush⟩ : (srcClass src = .normal ∨ srcClass src = .subnormal) ∧
      (stageA Config.flushLimit (decompose src)).flush = true := by
    rcases htiny with hsub | ⟨hnormal, he⟩
    · exact ⟨.inr hsub, stageA_flush_subnormal hsub⟩
    · exact ⟨.inl hnormal, (stageA_flush_normal_iff hnormal).mpr he⟩
  refine ⟨?_, _, _, engine_eq_flush hflush⟩
  rw [step_eq_complete, narrow_of_flush hclass hflush]
  rfl

/-! ## The flush as a shortcut -/

/-- At an extra shift of 54 or more every significand is less than half of the last place, and gives nothing
(R126). -/
theorem rounder_eq_zero_of_54_le {k : Nat} (hk : 54 ≤ k) (sig : Significand) :
    (rounder sig k).truncatedMantissa.toNat = 0 ∧ (rounder sig k).roundUp.toNat = 0 := by
  have hsig := sig.isLt
  have hpow : 2 ^ 114 ≤ 2 ^ (60 + k) := Nat.pow_le_pow_right (by decide) (by omega)
  have hlt : sig.toNat < 2 ^ (60 + k) := by omega
  constructor
  · rw [rounder_truncatedMantissa_toNat, rounder_kept_toNat, Nat.div_eq_of_lt hlt, Nat.zero_mod]
  · rw [rounder_roundUp_toNat, Nat.mod_eq_of_lt hlt, if_neg (by omega)]

/-- From limit 53 the code of the Finite path is what the rounder gives, flushed or not. -/
theorem finiteCode_of_53_le (hl : 53 ≤ limit) (dest : Int) (sig : Significand) :
    finiteCode limit dest sig =
      if 2047 ≤ dest then 0x7FF * 2 ^ 52
      else (expField0 dest).toNat * 2 ^ 52 + (rounder sig (extraShift dest)).truncatedMantissa.toNat
        + (rounder sig (extraShift dest)).roundUp.toNat := by
  rw [finiteCode]
  split
  · rfl
  split
  · next hflush =>
    obtain ⟨hnonpos, hk⟩ := flush_under_iff.mp hflush
    obtain ⟨htrunc, hup⟩ := rounder_eq_zero_of_54_le (by omega : 54 ≤ extraShift dest) sig
    rw [expField0_of_nonpos hnonpos, htrunc, hup]
    rfl
  · rfl

/-- Settles O48: on the Finite path both limits give the rounder's code, and elsewhere no limit is read. -/
theorem flushIsAShortcutFromFiftyThree : Obligations.FlushIsAShortcutFromFiftyThree := by
  unfold Obligations.FlushIsAShortcutFromFiftyThree
  intro limit src hl
  have hfinite (h : srcClass src = .normal ∨ srcClass src = .subnormal) :
      narrowWith limit src = narrowWith 53 src := by
    apply BitVec.eq_of_toNat_eq
    rw [narrowWith_finite h, narrowWith_finite h, packEngine_engine_toNat, packEngine_engine_toNat,
      finiteCode_of_53_le hl, finiteCode_of_53_le le_rfl]
  rw [narrow, Config.flushLimit_eq]
  rcases classify_cases (srcExponent src) (srcMantissa src) with
    ⟨-, -, hc⟩ | ⟨-, -, hc⟩ | ⟨-, -, hc⟩ | ⟨-, -, hc⟩ | ⟨-, -, hc⟩
  · rw [narrowWith_zero hc, narrowWith_zero hc]
  · exact hfinite (.inr hc)
  · rw [narrowWith_infinity hc, narrowWith_infinity hc]
  · rw [narrowWith_nan hc, narrowWith_nan hc]
  · exact hfinite (.inl hc)

end Sys2Proof.Machine
end

section
/-! `mantissa_rounder_shifter` (spec/43_mantissa_rounder_shifter.md R116 to R127): the one division of the
significand, the bits that decide its rounding, the increment, and the largest shifts. -/

namespace Sys2Proof.Machine

variable (sig : Significand) (k : Nat)

/-! ## The round and the sticky bit, and what they say of the discarded bits -/

theorem rounder_stickyBit_eq_one_iff :
    (rounder sig k).stickyBit = 1#1 ↔ sig.toNat % 2 ^ (59 + k) ≠ 0 := by
  rw [bit_eq_one_iff, rounder_stickyBit_toNat]
  simp

theorem rounder_stickyBit_eq_zero_iff :
    (rounder sig k).stickyBit = 0#1 ↔ sig.toNat % 2 ^ (59 + k) = 0 := by
  rw [bit_eq_zero_iff, rounder_stickyBit_toNat]
  simp

/-- What is discarded is the round bit above the bits that the sticky bit covers (R118, R119). -/
theorem discarded_eq : sig.toNat % 2 ^ (60 + k)
    = sig.toNat % 2 ^ (59 + k) + 2 ^ (59 + k) * (rounder sig k).roundBit.toNat := by
  rw [rounder_roundBit_toNat, show 60 + k = 59 + k + 1 by omega, pow_succ, Nat.mod_mul]

/-- R127. -/
theorem rounder_bits_eq_zero_iff :
    (rounder sig k).roundBit = 0#1 ∧ (rounder sig k).stickyBit = 0#1 ↔
      sig.toNat % 2 ^ (60 + k) = 0 := by
  rw [discarded_eq, Nat.add_eq_zero_iff, Nat.mul_eq_zero, or_iff_right (by positivity),
    bit_eq_zero_iff, rounder_stickyBit_eq_zero_iff, and_comm]

/-! ## The rounding decision -/

theorem rounder_roundUp_eq : (rounder sig k).roundUp
    = roundUpOf (rounder sig k).roundBit (rounder sig k).stickyBit (rounder sig k).lsb := rfl

/-- R122. -/
theorem rounder_roundUp_eq_one_iff :
    (rounder sig k).roundUp = 1#1 ↔
      (rounder sig k).roundBit = 1#1 ∧
        ((rounder sig k).stickyBit = 1#1 ∨ (rounder sig k).lsb = 1#1) := by
  rw [rounder_roundUp_eq]
  simp only [bit_eq_one_iff, roundUpOf_toNat, ite_eq_left_iff, zero_ne_one, imp_false, not_not]

variable {sig k} in
theorem rounder_roundUp_eq_zero (h : (rounder sig k).roundBit = 0#1) :
    (rounder sig k).roundUp = 0#1 := by
  have hne : (rounder sig k).roundUp ≠ 1#1 := by
    rw [Ne, rounder_roundUp_eq_one_iff, h]
    simp
  exact BitVec.eq_zero_or_eq_one _ |>.resolve_right hne

/-- The decision as a carry into what is kept: one division rounded half to even (R124). -/
theorem rounder_kept_add_roundUp :
    (rounder sig k).kept.toNat + (rounder sig k).roundUp.toNat = roundShift sig.toNat (60 + k) := by
  rw [rounder_kept_toNat, rounder_roundUp_toNat, roundShift]
  split <;> rfl

/-! ## The increment -/

theorem rounder_carry_eq_one_iff :
    (rounder sig k).carry = 1#1 ↔
      (rounder sig k).truncatedMantissa.toNat = 2 ^ 52 - 1 ∧ (rounder sig k).roundUp = 1#1 := by
  have htrunc := (rounder sig k).truncatedMantissa.isLt
  have hup := (rounder sig k).roundUp.isLt
  rw [bit_eq_one_iff, bit_eq_one_iff, rounder_carry_toNat, rounder_mantInc_toNat]
  omega

variable {sig k} in
/-- The increment of an all-ones field is 2^52, whose low 52 bits are 0 (R123). -/
theorem rounder_mantField_eq_zero_of_carry (h : (rounder sig k).carry = 1#1) :
    (rounder sig k).mantField = 0 := by
  obtain ⟨htrunc, hup⟩ := (rounder_carry_eq_one_iff sig k).mp h
  apply BitVec.eq_of_toNat_eq
  rw [rounder_mantField_toNat, rounder_mantInc_toNat, htrunc, hup]
  rfl

/-! ## The largest shifts (R125, R126) -/

variable {k} in
theorem rounder_kept_eq_zero (hk : 53 ≤ k) : (rounder sig k).kept = 0 := by
  have hpow : 2 ^ 113 ≤ 2 ^ (60 + k) := Nat.pow_le_pow_right (by decide) (by omega)
  apply BitVec.eq_of_toNat_eq
  rw [rounder_kept_toNat, Nat.div_eq_of_lt (lt_of_lt_of_le sig.isLt hpow)]
  rfl

variable {k} in
/-- From 54 on the round bit lies above the significand. -/
theorem rounder_roundBit_eq_zero (hk : 54 ≤ k) : (rounder sig k).roundBit = 0#1 := by
  have hpow : 2 ^ 113 ≤ 2 ^ (59 + k) := Nat.pow_le_pow_right (by decide) (by omega)
  rw [bit_eq_zero_iff, rounder_roundBit_toNat, Nat.div_eq_of_lt (lt_of_lt_of_le sig.isLt hpow)]

variable {k} in
theorem rounder_mantField_eq_zero (hk : 54 ≤ k) : (rounder sig k).mantField = 0 := by
  obtain ⟨htrunc, hup⟩ := rounder_eq_zero_of_54_le hk sig
  apply BitVec.eq_of_toNat_eq
  rw [rounder_mantField_toNat, rounder_mantInc_toNat, htrunc, hup]
  rfl

theorem rounder_roundBit_53 : (rounder sig 53).roundBit.toNat = sig.toNat / 2 ^ 112 := by
  have hsig := sig.isLt
  rw [rounder_roundBit_toNat]
  omega

variable (m : SrcMant)

theorem srcMant_eq_zero_iff : m = 0 ↔ m.toNat = 0 := BitVec.toNat_eq

/-- Shifted by 112, a Normal significand keeps its implicit bit alone. -/
theorem rounder_kept_normal_52 : (rounder (significand .normal m) 52).kept = 1 := by
  have hm := m.isLt
  apply BitVec.eq_of_toNat_eq
  rw [rounder_kept_toNat, significand_normal_toNat]
  exact (by omega : (2 ^ 112 + m.toNat) / 2 ^ (60 + 52) = 1)

theorem rounder_roundBit_normal_52 :
    (rounder (significand .normal m) 52).roundBit.toNat = m.toNat / 2 ^ 111 := by
  have hm := m.isLt
  rw [rounder_roundBit_toNat, significand_normal_toNat]
  omega

theorem rounder_lsb_normal_52 : (rounder (significand .normal m) 52).lsb = 1 := by
  apply BitVec.eq_of_toNat_eq
  rw [rounder_lsb_toNat, rounder_kept_normal_52]
  rfl

theorem rounder_stickyBit_normal_52 :
    (rounder (significand .normal m) 52).stickyBit = 1 ↔ m.toNat % 2 ^ 111 ≠ 0 := by
  refine (rounder_stickyBit_eq_one_iff _ _).trans ?_
  rw [significand_normal_toNat]
  omega

/-- What is kept is odd, so the round bit alone decides. -/
theorem rounder_roundUp_normal_52 :
    (rounder (significand .normal m) 52).roundUp = (rounder (significand .normal m) 52).roundBit := by
  have hup := rounder_roundUp_eq_one_iff (significand .normal m) 52
  rw [and_iff_left (.inr (rounder_lsb_normal_52 m))] at hup
  rcases BitVec.eq_zero_or_eq_one (rounder (significand .normal m) 52).roundBit with h | h
  · rw [h, rounder_roundUp_eq_zero h]
  · rw [h, hup.mpr h]

theorem rounder_mantField_normal_52 :
    (rounder (significand .normal m) 52).mantField.toNat = 1 + m.toNat / 2 ^ 111 := by
  have hm := m.isLt
  rw [rounder_mantField_toNat, rounder_mantInc_toNat, rounder_truncatedMantissa_toNat,
    rounder_kept_normal_52, rounder_roundUp_normal_52, rounder_roundBit_normal_52]
  exact Nat.mod_eq_of_lt (by omega : 1 + m.toNat / 2 ^ 111 < 2 ^ 52)

/-- Shifted by 113, a Normal significand has its implicit bit as the round bit. -/
theorem rounder_roundBit_normal_53 : (rounder (significand .normal m) 53).roundBit = 1#1 := by
  have hm := m.isLt
  rw [bit_eq_one_iff, rounder_roundBit_53, significand_normal_toNat]
  omega

theorem rounder_lsb_normal_53 : (rounder (significand .normal m) 53).lsb = 0#1 := by
  rw [bit_eq_zero_iff, rounder_lsb_toNat, rounder_kept_eq_zero _ le_rfl]
  rfl

theorem rounder_stickyBit_normal_53 :
    (rounder (significand .normal m) 53).stickyBit = 1#1 ↔ m ≠ 0 := by
  have hm := m.isLt
  rw [rounder_stickyBit_eq_one_iff, significand_normal_toNat, Ne, Ne, srcMant_eq_zero_iff]
  omega

theorem rounder_roundUp_normal_53_eq_one_iff :
    (rounder (significand .normal m) 53).roundUp = 1#1 ↔ m ≠ 0 := by
  rw [rounder_roundUp_eq_one_iff, rounder_stickyBit_normal_53, rounder_lsb_normal_53]
  simp [rounder_roundBit_normal_53]

theorem rounder_mantField_normal_53 :
    (rounder (significand .normal m) 53).mantField = if m = 0 then 0 else 1 := by
  apply BitVec.eq_of_toNat_eq
  rw [rounder_mantField_toNat, rounder_mantInc_toNat, rounder_truncatedMantissa_normal_53,
    rounder_roundUp_normal_53]
  simp only [srcMant_eq_zero_iff]
  split <;> rfl

end Sys2Proof.Machine
end

section
/-! The statements about `mantissa_rounder_shifter`. -/

namespace Sys2Proof.Machine

/-- Settles O31: the bound on the shift is not needed, since no shift is taken modulo a width. -/
theorem rounderComputesTheseIntegers : Obligations.RounderComputesTheseIntegers := by
  unfold Obligations.RounderComputesTheseIntegers
  exact fun sig k _ => ⟨rounder_totalShift sig k, rounder_kept_toNat sig k, rounder_roundBit_toNat sig k,
    rounder_stickyBit_toNat sig k, rounder_lsb_toNat sig k, rounder_truncatedMantissa_toNat sig k⟩

/-- Settles O32: the rule, and the eight lines by evaluation. -/
theorem roundUpIsHalfToEven : Obligations.RoundUpIsHalfToEven := by
  unfold Obligations.RoundUpIsHalfToEven
  exact ⟨rounder_roundUp_eq_one_iff, by decide⟩

/-- Settles O33: the sum of a 52-bit field and one bit reaches 2^52 in one way only. -/
theorem carryOnlyFromAllOnesField : Obligations.CarryOnlyFromAllOnesField := by
  unfold Obligations.CarryOnlyFromAllOnesField
  exact fun sig k => ⟨rounder_mantInc_toNat sig k, rounder_carry_toNat sig k, rounder_mantField_toNat sig k,
    rounder_carry_eq_one_iff sig k, rounder_mantField_eq_zero_of_carry⟩

/-- Settles O34: the rounding decision compares what is discarded with half of the last place. -/
theorem rounderRoundsOnceToNearestEven : Obligations.RounderRoundsOnceToNearestEven := by
  unfold Obligations.RounderRoundsOnceToNearestEven
  exact rounder_kept_add_roundUp

/-- Settles O35: the significand has 113 bits, so at 53 its top bit is the round bit and from 54 on there is
none; a Normal's top bit is 1. -/
theorem rounderAtTheBottomOfTheRange : Obligations.RounderAtTheBottomOfTheRange := by
  unfold Obligations.RounderAtTheBottomOfTheRange
  refine ⟨fun sig => ⟨?_, fun k hk => ?_⟩, fun m => ⟨?_, ?_⟩⟩
  · exact ⟨rounder_totalShift sig 53, rounder_kept_eq_zero sig le_rfl, rounder_roundBit_53 sig,
      rounder_stickyBit_eq_one_iff sig 53⟩
  · have hround := rounder_roundBit_eq_zero sig hk
    exact ⟨rounder_kept_eq_zero sig (by omega), hround, rounder_roundUp_eq_zero hround,
      rounder_mantField_eq_zero sig hk⟩
  · exact ⟨rounder_kept_normal_52 m, rounder_lsb_normal_52 m, rounder_roundBit_normal_52 m,
      rounder_stickyBit_normal_52 m, rounder_mantField_normal_52 m⟩
  · exact ⟨rounder_kept_eq_zero _ le_rfl, rounder_roundBit_normal_53 m, rounder_lsb_normal_53 m,
      rounder_stickyBit_normal_53 m, rounder_roundUp_normal_53_eq_one_iff m, rounder_mantField_normal_53 m⟩

/-- Settles O36: nothing is discarded when the division is exact, and without a round bit nothing is added. -/
theorem nothingDiscardedMeansExact : Obligations.NothingDiscardedMeansExact := by
  unfold Obligations.NothingDiscardedMeansExact
  intro sig k
  refine ⟨rounder_bits_eq_zero_iff sig k, fun h => ?_⟩
  obtain ⟨hround, -⟩ := (rounder_bits_eq_zero_iff sig k).mpr h
  refine ⟨rounder_roundUp_eq_zero hround, ?_⟩
  rw [rounder_kept_toNat, Nat.div_mul_cancel (Nat.dvd_of_mod_eq_zero h)]

end Sys2Proof.Machine
end

section
/-! `ieee754_packer`, the rows that do not round (spec/44_ieee754_packer.md R137 to R141): each drives one of
the packer's words, whose fields are written out here. -/

namespace Sys2Proof.Machine

/-! ## A destination word and its fields (R57) -/

@[simp] theorem dstSignOf_dstWord (s : Bit) (e : DstExp) (m : DstMant) : dstSignOf (dstWord s e m) = s := by
  have he := e.isLt
  have hm := m.isLt
  apply BitVec.eq_of_toNat_eq
  rw [dstSignOf_toNat, dstWord_toNat]
  omega

@[simp] theorem dstExponent_dstWord (s : Bit) (e : DstExp) (m : DstMant) :
    dstExponent (dstWord s e m) = e := by
  have he := e.isLt
  have hm := m.isLt
  apply BitVec.eq_of_toNat_eq
  rw [dstExponent_toNat, dstWord_toNat]
  omega

@[simp] theorem dstMantissa_dstWord (s : Bit) (e : DstExp) (m : DstMant) :
    dstMantissa (dstWord s e m) = m := by
  have hm := m.isLt
  apply BitVec.eq_of_toNat_eq
  rw [dstMantissa_toNat, dstWord_toNat]
  omega

/-- A word put together from its own fields. -/
@[simp] theorem dstWord_fields (d : Double) :
    dstWord (dstSignOf d) (dstExponent d) (dstMantissa d) = d := by
  have hd := d.isLt
  apply BitVec.eq_of_toNat_eq
  rw [dstWord_toNat, dstSignOf_toNat, dstExponent_toNat, dstMantissa_toNat]
  omega

theorem getLsbD_dstWord_of_lt (s : Bit) (e : DstExp) (m : DstMant) {i : Nat} (hi : i < 52) :
    (dstWord s e m).getLsbD i = m.getLsbD i := by
  rw [dstWord, BitVec.getLsbD_append, if_pos hi]

theorem dstClass_eq_nan_iff (d : Double) :
    dstClass d = .nan ↔ (dstExponent d).toNat = 2047 ∧ dstMantissa d ≠ 0 := by
  rw [dstClass, Config.dstExpOnes_eq]
  split_ifs with hzero hm hones hm
  · exact iff_of_false (by decide) (by omega)
  · exact iff_of_false (by decide) (by omega)
  · exact iff_of_false (by decide) fun h => h.2 hm
  · exact iff_of_true rfl ⟨hones, hm⟩
  · exact iff_of_false (by decide) fun h => hones h.1

theorem dstMantissa_eq_zero_iff (d : Double) : dstMantissa d = 0 ↔ d.toNat % 2 ^ 52 = 0 := by
  rw [← BitVec.toNat_inj, dstMantissa_toNat]
  rfl

/-! ## The words of the rules -/

theorem dstExpOnesField_eq : dstExpOnesField = 0x7FF#11 := by decide

theorem dstQuiet_eq : Config.dstQuiet = 0x8000000000000#52 := by decide

theorem packInfinity_eq_fields (s : Bit) : packInfinity s = s ++ 0x7FF#11 ++ 0x0000000000000#52 := by
  rw [packInfinity, dstExpOnesField_eq]
  rfl

theorem packNan_eq_fields (s : Bit) (m : SrcMant) :
    packNan s m = s ++ 0x7FF#11 ++ (m.extractLsb' 60 52 ||| 0x8000000000000#52) := by
  rw [packNan, dstExpOnesField_eq, dstQuiet_eq]
  rfl

theorem dstMantissa_packNan (s : Bit) (m : SrcMant) :
    dstMantissa (packNan s m) = m.extractLsb' 60 52 ||| 0x8000000000000#52 := by
  rw [packNan, dstMantissa_dstWord, dstQuiet_eq]

/-- Forcing bit 51 leaves the bits below it (R139). -/
theorem getLsbD_quieted (x : DstMant) (i : Nat) :
    (x ||| 0x8000000000000#52).getLsbD i = (decide (i = 51) || x.getLsbD i) := by
  have hquiet : 0x8000000000000#52 = BitVec.twoPow 52 51 := by decide
  rw [hquiet, BitVec.getLsbD_or, BitVec.getLsbD_twoPow, Bool.or_comm]
  simp [eq_comm]

theorem getLsbD_packNan (s : Bit) (m : SrcMant) {i : Nat} (hi : i < 52) :
    (packNan s m).getLsbD i = (decide (i = 51) || m.getLsbD (i + 60)) := by
  rw [packNan, getLsbD_dstWord_of_lt _ _ _ hi, dstQuiet_eq, getLsbD_quieted, BitVec.getLsbD_extractLsb',
    decide_eq_true hi, Bool.true_and, Nat.add_comm 60 i]

theorem dstClass_packNan (s : Bit) (m : SrcMant) : dstClass (packNan s m) = .nan := by
  rw [dstClass_eq_nan_iff]
  constructor
  · rw [packNan, dstExponent_dstWord, dstExpOnesField_toNat]
  · intro hzero
    rw [dstMantissa_packNan] at hzero
    have hbit := getLsbD_quieted (m.extractLsb' 60 52) 51
    rw [hzero] at hbit
    exact Bool.false_ne_true hbit

theorem packRounded_of_overflowPost {b : StageB} (h : b.overflowPost = true) (s : Bit) (r : Rounded) :
    packRounded s r b = packInfinity s :=
  if_pos h

theorem packRounded_of_not_overflowPost {b : StageB} (h : b.overflowPost = false) (s : Bit) (r : Rounded) :
    packRounded s r b = s ++ b.expField1.extractLsb' 0 11 ++ r.mantField :=
  if_neg (by simp [h])

/-! ## The statements -/

/-- Settles O12: the packer's rule for zeros. -/
theorem zeroGivesSignedZero : Obligations.ZeroGivesSignedZero := by
  unfold Obligations.ZeroGivesSignedZero
  exact fun sign s => complete_eq_next (packZero sign) s

/-- Settles O13: the packer's rule for infinities. -/
theorem infinityGivesSignedInfinity : Obligations.InfinityGivesSignedInfinity := by
  unfold Obligations.InfinityGivesSignedInfinity
  intro sign s
  rw [← packInfinity_eq_fields]
  exact complete_eq_next _ s

/-- Settles O16: the packer's rule for flushed operands, which reads the sign alone. -/
theorem flushRowsGiveSignedZero : Obligations.FlushRowsGiveSignedZero := by
  unfold Obligations.FlushRowsGiveSignedZero
  exact ⟨fun sign _ _ s => complete_eq_next (packFlush sign) s,
    fun sign _ s => complete_eq_next (packFlush sign) s⟩

/-- Settles O15: both causes of overflow lead to the packer's overflow rule. -/
theorem overflowGivesSignedInfinity : Obligations.OverflowGivesSignedInfinity := by
  unfold Obligations.OverflowGivesSignedInfinity
  refine ⟨fun sign e m s => ?_, fun sign e m s hpost => ?_⟩ <;> rw [← packInfinity_eq_fields]
  · exact complete_eq_next _ s
  · rw [← packRounded_of_overflowPost hpost sign (rounder (significand .normal m) 0)]
    exact complete_eq_next _ s

/-- Settles O14: the mantissa field is the source's top bits, of which only bit 51 is changed. -/
theorem nanKeepsTopPayloadAndIsQuieted : Obligations.NanKeepsTopPayloadAndIsQuieted := by
  unfold Obligations.NanKeepsTopPayloadAndIsQuieted
  intro sign m s
  refine ⟨packNan sign m, complete_eq_next _ s, packNan_eq_fields sign m, ?_, fun i hi => ?_,
    dstClass_packNan sign m⟩
  · rw [getLsbD_packNan _ _ (by decide)]
    rfl
  · rw [getLsbD_packNan _ _ (by omega), decide_eq_false (by omega), Bool.false_or]

end Sys2Proof.Machine
end

section
/-! `ieee754_packer`, the two rows that round (spec/44_ieee754_packer.md R142): the result's code as one
rounding of the significand (R85, R124), and as the finished fields. -/

namespace Sys2Proof.Machine

variable {e : SrcExp} {m : SrcMant} {k : Nat}

/-! ## The code as one rounding -/

/-- Without an extra shift a Normal keeps its implicit bit, which the stripped field lacks (R121). -/
theorem rounder_truncatedMantissa_normal_0 (m : SrcMant) :
    (rounder (significand .normal m) 0).truncatedMantissa.toNat + 2 ^ 52
      = (rounder (significand .normal m) 0).kept.toNat := by
  have hm := m.isLt
  rw [rounder_truncatedMantissa_toNat, rounder_kept_toNat, significand_normal_toNat]
  omega

/-- With an extra shift the implicit bit is not above the field, and nothing is stripped (R121). -/
theorem rounder_truncatedMantissa_of_pos (sig : Significand) (hk : 0 < k) :
    (rounder sig k).truncatedMantissa.toNat = (rounder sig k).kept.toNat := by
  have hlt : (rounder sig k).kept.toNat < 2 ^ 52 := by
    rw [rounder_kept_toNat]
    have hpow : 2 ^ 61 ≤ 2 ^ (60 + k) := Nat.pow_le_pow_right (by decide) (by omega)
    calc sig.toNat / 2 ^ (60 + k)
      _ ≤ sig.toNat / 2 ^ 61 := Nat.div_le_div_left hpow (by decide)
      _ < 2 ^ 52 := by have hsig := sig.isLt; omega
  rw [rounder_truncatedMantissa_toNat, Nat.mod_eq_of_lt hlt]

/-- The exponent field of the row of normal results, before the carry (R107). -/
theorem expField0_normal_toNat (hlo : 0x3C01 ≤ e.toNat) (hhi : e.toNat ≤ 0x43FE) :
    (expField0 (destExponent .normal e)).toNat = e.toNat - 0x3C00 := by
  rw [destExponent_normal, expField0_toNat_of_pos (by omega) (by omega)]
  omega

/-- On the row of normal results the sum of R85 counts the exponent from 0x3C01, because the significand
brings its implicit bit. -/
theorem oneAdder_normal (hlo : 0x3C01 ≤ e.toNat) (hhi : e.toNat ≤ 0x43FE) (m : SrcMant) :
    (expField0 (destExponent .normal e)).toNat * 2 ^ 52
        + (rounder (significand .normal m) 0).truncatedMantissa.toNat
        + (rounder (significand .normal m) 0).roundUp.toNat
      = (e.toNat - 0x3C01) * 2 ^ 52 + roundShift (2 ^ 112 + m.toNat) 60 := by
  have hround := rounder_kept_add_roundUp (significand .normal m) 0
  have htrunc := rounder_truncatedMantissa_normal_0 m
  rw [significand_normal_toNat, add_zero] at hround
  rw [expField0_normal_toNat hlo hhi]
  omega

/-- On the row of subnormal results the sum of R85 is what the rounder gives. -/
theorem oneAdder_subnormal (sig : Significand) (hk : 0 < k) :
    (0 : DstExp).toNat * 2 ^ 52 + (rounder sig k).truncatedMantissa.toNat + (rounder sig k).roundUp.toNat
      = roundShift sig.toNat (60 + k) := by
  rw [← rounder_kept_add_roundUp, rounder_truncatedMantissa_of_pos sig hk]
  simp

/-- The word of the row of normal results. -/
theorem roundAndPack_normal (s : Bit) (hlo : 0x3C01 ≤ e.toNat) (hhi : e.toNat ≤ 0x43FE) (m : SrcMant) :
    roundAndPack s (expField0 (destExponent .normal e)) (significand .normal m) 0
      = (s ++ BitVec.ofNat 63 ((e.toNat - 0x3C01) * 2 ^ 52 + roundShift (2 ^ 112 + m.toNat) 60) :
        BitVec 64) := by
  rw [roundAndPack_eq _ _ _ _ (by rw [expField0_normal_toNat hlo hhi]; omega), oneAdder_normal hlo hhi]

/-- The word of the row of subnormal results. -/
theorem roundAndPack_subnormal (s : Bit) (hhi : e.toNat ≤ 0x3C00) (m : SrcMant) :
    roundAndPack s 0 (significand .normal m) (extraShift (destExponent .normal e))
      = (s ++ BitVec.ofNat 63 (roundShift (2 ^ 112 + m.toNat) (60 + (15361 - e.toNat))) : BitVec 64) := by
  rw [extraShift_normal, roundAndPack_eq _ _ _ _ (by decide), oneAdder_subnormal _ (by omega),
    significand_normal_toNat]

/-- Settles O17: the one adder gives the code, and no sum goes past the infinity pattern. -/
theorem normalRowRoundsOnceAtSixty : Obligations.NormalRowRoundsOnceAtSixty := by
  unfold Obligations.NormalRowRoundsOnceAtSixty
  intro sign e m s hlo hhi
  refine ⟨_, rfl, ?_, ?_⟩
  · rw [← oneAdder_normal hlo hhi]
    exact oneAdder_le (by rw [expField0_normal_toNat hlo hhi]; omega) _ _
  · rw [← roundAndPack_normal sign hlo hhi]
    exact complete_eq_next _ s

/-- Settles O18: the one adder gives the code, in which a 52-bit field and one bit are added. -/
theorem subnormalRowRoundsOnceAtTheFullShift : Obligations.SubnormalRowRoundsOnceAtTheFullShift := by
  unfold Obligations.SubnormalRowRoundsOnceAtTheFullShift
  intro sign e m s _ hhi
  refine ⟨_, rfl, ?_, ?_⟩
  · have hk : 0 < 15361 - e.toNat := by omega
    have htrunc := (rounder (significand .normal m) (15361 - e.toNat)).truncatedMantissa.isLt
    have hup := (rounder (significand .normal m) (15361 - e.toNat)).roundUp.isLt
    rw [← significand_normal_toNat, ← rounder_kept_add_roundUp, ← rounder_truncatedMantissa_of_pos _ hk]
    omega
  · rw [← roundAndPack_subnormal sign hhi]
    exact complete_eq_next _ s

/-! ## The finished fields and the corner cases -/

/-- Above the exponent field 0 the carry is the whole exponent field, and it cannot overflow (R109). -/
theorem stageB_zero (carry : Bit) :
    (stageB 0 carry).overflowPost = false ∧
      (stageB 0 carry).expField1.extractLsb' 0 11 = carry.setWidth 11 := by
  revert carry
  decide

/-- Where nothing is kept the round-up is the whole mantissa field, and nothing is carried. -/
theorem rounder_of_kept_eq_zero {sig : Significand} (h : (rounder sig k).kept = 0) :
    (rounder sig k).carry = 0#1 ∧ (rounder sig k).mantField = (rounder sig k).roundUp.setWidth 52 := by
  have hup := (rounder sig k).roundUp.isLt
  have hinc : (rounder sig k).mantInc.toNat = (rounder sig k).roundUp.toNat := by
    rw [rounder_mantInc_toNat, rounder_truncatedMantissa_toNat, h]
    simp
  constructor
  · rw [bit_eq_zero_iff, rounder_carry_toNat, hinc]
    omega
  · apply BitVec.eq_of_toNat_eq
    rw [rounder_mantField_toNat, hinc, BitVec.toNat_setWidth]

/-- A Normal significand keeps nothing exactly when it is shifted by its whole width or more (R126). -/
theorem rounder_kept_normal_eq_zero_iff : (rounder (significand .normal m) k).kept = 0 ↔ 53 ≤ k := by
  refine ⟨fun h => ?_, rounder_kept_eq_zero _⟩
  by_contra hk
  have hpow : 2 ^ (60 + k) ≤ 2 ^ 112 := Nat.pow_le_pow_right (by decide) (by omega)
  have hpos : 0 < (rounder (significand .normal m) k).kept.toNat := by
    rw [rounder_kept_toNat, significand_normal_toNat]
    exact Nat.div_pos (by omega) (by positivity)
  rw [h] at hpos
  exact absurd hpos (by decide)

/-- A result of the row of subnormal results is zero from the implicit bit alone, half of the least
subnormal (R142, R126). -/
theorem rounder_subnormal_eq_zero_iff (hlo : 0x3BCC ≤ e.toNat) :
    (rounder (significand .normal m) (15361 - e.toNat)).kept = 0 ∧
        (rounder (significand .normal m) (15361 - e.toNat)).roundUp = 0 ↔
      e.toNat = 0x3BCC ∧ m = 0 := by
  rw [rounder_kept_normal_eq_zero_iff, show 53 ≤ 15361 - e.toNat ↔ e.toNat = 0x3BCC by omega]
  refine and_congr_right fun he => ?_
  have hup := rounder_roundUp_normal_53_eq_one_iff m
  rw [he, show 15361 - 0x3BCC = 53 from rfl]
  rcases BitVec.eq_zero_or_eq_one (rounder (significand .normal m) 53).roundUp with h | h
  · rw [h] at hup ⊢
    exact iff_of_true rfl (not_not.mp (mt hup.mpr (by decide)))
  · rw [h] at hup ⊢
    exact iff_of_false (by decide) (hup.mp rfl)

/-- Stage B without overflow leaves the field of a finite code (R110). -/
theorem stageB_expField1_le {e0 : DstExp} {carry : Bit} (h : (stageB e0 carry).overflowPost = false) :
    (stageB e0 carry).expField1.toNat ≤ 2046 := by
  simp only [stageB, overflowPost_eq, decide_eq_false_iff_not] at h ⊢
  omega

/-- On the row of normal results the carry increments the rebiased exponent (R109). -/
theorem stageB_expField1_normal_of_carry (hlo : 0x3C01 ≤ e.toNat) (hhi : e.toNat ≤ 0x43FE) {carry : Bit}
    (h : carry = 1#1) :
    ((stageB (expField0 (destExponent .normal e)) carry).expField1.toNat : Int)
      = destExponent .normal e + 1 := by
  have hcarry := (bit_eq_one_iff carry).mp h
  rw [stageB, expField1_toNat, expField0_normal_toNat hlo hhi, hcarry, destExponent_normal]
  omega

/-- The row of normal results without overflow drives the finished fields. -/
theorem exec_narrowNorm_of_not_overflowPost
    (h : (stageB (expField0 (destExponent .normal e)) (rounder (significand .normal m) 0).carry).overflowPost
      = false) (sign : Bit) (s : State) :
    exec (.narrowNorm sign e m) s = .next ⟨s.src, sign
      ++ (stageB (expField0 (destExponent .normal e))
          (rounder (significand .normal m) 0).carry).expField1.extractLsb' 0 11
      ++ (rounder (significand .normal m) 0).mantField⟩ := by
  rw [← packRounded_of_not_overflowPost h]
  exact complete_eq_next _ s

/-- The row of subnormal results drives the carry and the mantissa field. -/
theorem exec_narrowSub_eq (sign : Bit) (e : SrcExp) (m : SrcMant) (s : State) :
    exec (.narrowSub sign e m) s = .next ⟨s.src,
      sign ++ (rounder (significand .normal m) (extraShift (destExponent .normal e))).carry.setWidth 11
        ++ (rounder (significand .normal m) (extraShift (destExponent .normal e))).mantField⟩ := by
  obtain ⟨hpost, hfield⟩ :=
    stageB_zero (rounder (significand .normal m) (extraShift (destExponent .normal e))).carry
  rw [← hfield, ← packRounded_of_not_overflowPost hpost]
  exact complete_eq_next _ s

/-- Settles O19: stage B and the rounder give the two fields; each corner case says what they are. -/
theorem finiteRowsPackTheFinishedFields : Obligations.FiniteRowsPackTheFinishedFields := by
  unfold Obligations.FiniteRowsPackTheFinishedFields
  refine ⟨fun sign e m s hlo hhi => ?_, fun sign e m s hlo hhi => ?_⟩ <;> intro r b
  · intro hpost
    exact ⟨stageB_expField1_le hpost, exec_narrowNorm_of_not_overflowPost hpost sign s, fun hcarry =>
      ⟨stageB_expField1_normal_of_carry hlo hhi hcarry, rounder_mantField_eq_zero_of_carry hcarry⟩⟩
  · obtain ⟨hpost, hfield⟩ : b.overflowPost = false ∧ b.expField1.extractLsb' 0 11 = r.carry.setWidth 11 :=
      stageB_zero r.carry
    have hexec : exec (.narrowSub sign e m) s = .next ⟨s.src, sign ++ r.carry.setWidth 11 ++ r.mantField⟩ :=
      exec_narrowSub_eq sign e m s
    refine ⟨hpost, ?_, fun hcarry => ?_, fun ⟨hkept, hup⟩ => ?_, ?_, fun ⟨hkept, hup⟩ => ?_⟩
    · rw [hexec, hfield]
    · rw [hexec, rounder_mantField_eq_zero_of_carry hcarry, hcarry]
      rfl
    · obtain ⟨hcarry, hmant⟩ := rounder_of_kept_eq_zero hkept
      rw [hexec, hcarry, hmant, hup]
      rfl
    · have hiff := rounder_subnormal_eq_zero_iff (m := m) hlo
      rwa [← extraShift_normal] at hiff
    · obtain ⟨hcarry, hmant⟩ := rounder_of_kept_eq_zero hkept
      rw [hexec, hcarry, hmant, hup]
      rfl

end Sys2Proof.Machine
end

section
/-! The words that the packer can produce (spec/44_ieee754_packer.md R144, spec/45_properties.md R162): every
result is one, and each is the result of the operand with its value or with its payload. -/

namespace Sys2Proof.Machine

/-! ## Every result is a producible word -/

theorem producible_iff (d : Double) :
    Producible d ↔
      ((dstExponent d).toNat = 2047 → dstMantissa d ≠ 0 → (dstMantissa d).getLsbD 51 = true) := by
  rw [Producible, dstClass_eq_nan_iff, and_imp]

/-- A code up to that of infinity is no NaN's. -/
theorem producible_signCode (s : Bit) {n : Nat} (h : n ≤ 0x7FF * 2 ^ 52) :
    Producible (s ++ BitVec.ofNat 63 n : BitVec 64) := by
  rw [producible_iff]
  intro hones hm
  have hs := s.isLt
  rw [dstExponent_toNat, signCode_toNat _ _ (by omega)] at hones
  rw [Ne, dstMantissa_eq_zero_iff, signCode_toNat _ _ (by omega)] at hm
  omega

theorem producible_packNan (s : Bit) (m : SrcMant) : Producible (packNan s m) := by
  intro _
  rw [dstMantissa_packNan, getLsbD_quieted]
  rfl

theorem dstSignOf_signCode (s : Bit) {n : Nat} (h : n < 2 ^ 63) :
    dstSignOf (s ++ BitVec.ofNat 63 n : BitVec 64) = s := by
  apply BitVec.eq_of_toNat_eq
  rw [dstSignOf_toNat, signCode_toNat _ _ h]
  omega

/-- The Finite path goes no further than the infinity pattern (R85). -/
theorem finiteCode_le (limit : Nat) (dest : Int) (sig : Significand) :
    finiteCode limit dest sig ≤ 0x7FF * 2 ^ 52 := by
  rw [finiteCode]
  split
  · exact le_rfl
  split
  · exact Nat.zero_le _
  · exact oneAdder_le (expField0_toNat_le (by omega)) sig _

theorem packEngine_engine_eq (s : Bit) (limit : Nat) (d : Decomposed) :
    packEngine s (engine limit d) = (s ++ BitVec.ofNat 63
      (finiteCode limit (destExponent d.cls d.exponentField) (significand d.cls d.mantissaField)) :
        BitVec 64) := by
  have hle := finiteCode_le limit (destExponent d.cls d.exponentField) (significand d.cls d.mantissaField)
  apply BitVec.eq_of_toNat_eq
  rw [packEngine_engine_toNat, signCode_toNat _ _ (by omega)]

/-- Everything the operation can answer: the operand's sign above a code up to that of infinity, or the
packer's NaN. -/
theorem narrow_cases (src : Quad) :
    (∃ n ≤ 0x7FF * 2 ^ 52, narrow src = (srcSign src ++ BitVec.ofNat 63 n : BitVec 64)) ∨
      narrow src = packNan (srcSign src) (srcMantissa src) := by
  have hfinite (h : srcClass src = .normal ∨ srcClass src = .subnormal) :
      ∃ n ≤ 0x7FF * 2 ^ 52, narrow src = (srcSign src ++ BitVec.ofNat 63 n : BitVec 64) :=
    ⟨_, finiteCode_le _ _ _, (narrowWith_finite h).trans (packEngine_engine_eq _ _ _)⟩
  rcases classify_cases (srcExponent src) (srcMantissa src) with
    ⟨-, -, hc⟩ | ⟨-, -, hc⟩ | ⟨-, -, hc⟩ | ⟨-, -, hc⟩ | ⟨-, -, hc⟩
  · exact .inl ⟨0, Nat.zero_le _, (narrowWith_zero hc).trans (packZero_eq _)⟩
  · exact .inl (hfinite (.inr hc))
  · exact .inl ⟨_, le_rfl, (narrowWith_infinity hc).trans (packInfinity_eq _)⟩
  · exact .inr (narrowWith_nan hc)
  · exact .inl (hfinite (.inl hc))

theorem producible_narrow (src : Quad) : Producible (narrow src) := by
  rcases narrow_cases src with ⟨n, hn, h⟩ | h <;> rw [h]
  · exact producible_signCode _ hn
  · exact producible_packNan _ _

theorem dstSignOf_narrow (src : Quad) : dstSignOf (narrow src) = srcSign src := by
  rcases narrow_cases src with ⟨n, hn, h⟩ | h <;> rw [h]
  · exact dstSignOf_signCode _ (by omega)
  · exact dstSignOf_dstWord _ _ _

/-- Settles O54: a step drives the result of the operand that it leaves on `src`. -/
theorem everyStepShowsAProducibleWord : Obligations.EveryStepShowsAProducibleWord := by
  unfold Obligations.EveryStepShowsAProducibleWord
  intro s t h
  rw [step_next_iff.mp h]
  exact ⟨producible_narrow s.src, dstSignOf_narrow s.src⟩

/-! ## Every producible word is a result -/

/-- A division without remainder is not rounded. -/
theorem roundShift_mul_two_pow (q n : Nat) : roundShift (q * 2 ^ n) n = q := by
  have hpos : 0 < 2 ^ n := Nat.two_pow_pos n
  rw [roundShift, Nat.mul_div_cancel _ hpos, Nat.mul_mod_left, if_neg (by omega)]

section
variable {e : SrcExp} (s : Bit) (m : SrcMant)

/-- A source Normal of the row of normal results. -/
theorem narrow_srcWord_normal (hlo : 0x3C01 ≤ e.toNat) (hhi : e.toNat ≤ 0x43FE) :
    narrow (srcWord s e m) = (s ++ BitVec.ofNat 63
      ((e.toNat - 0x3C01) * 2 ^ 52 + roundShift (2 ^ 112 + m.toNat) 60) : BitVec 64) := by
  have hclass : classify (srcExponent (srcWord s e m)) (srcMantissa (srcWord s e m)) = .normal := by
    rw [srcExponent_srcWord]
    exact classify_normal (by omega) (by omega)
  have hk : extraShift (destExponent .normal e) = 0 := by
    rw [extraShift_normal]
    omega
  rw [narrow, narrowWith_rounded hclass (by rw [srcExponent_srcWord]; omega)
    (by rw [srcExponent_srcWord]; omega), srcSign_srcWord, srcExponent_srcWord, srcMantissa_srcWord, hk,
    roundAndPack_normal s hlo hhi]

/-- A source Normal of the row of subnormal results. -/
theorem narrow_srcWord_subnormal (hlo : 0x3BCC ≤ e.toNat) (hhi : e.toNat ≤ 0x3C00) :
    narrow (srcWord s e m) = (s ++ BitVec.ofNat 63
      (roundShift (2 ^ 112 + m.toNat) (60 + (15361 - e.toNat))) : BitVec 64) := by
  have hclass : classify (srcExponent (srcWord s e m)) (srcMantissa (srcWord s e m)) = .normal := by
    rw [srcExponent_srcWord]
    exact classify_normal (by omega) (by omega)
  have hfield : expField0 (destExponent .normal e) = 0 :=
    expField0_of_nonpos (by rw [destExponent_normal]; omega)
  rw [narrow, narrowWith_rounded hclass (by rw [srcExponent_srcWord, Config.flushLimit_eq]; omega)
    (by rw [srcExponent_srcWord]; omega), srcSign_srcWord, srcExponent_srcWord, srcMantissa_srcWord, hfield,
    roundAndPack_subnormal s hhi]

end

section
variable (s : Bit) {e : DstExp} {m : DstMant} {j : Nat}

/-- A zero is the result of the source zero of its sign (R137). -/
theorem narrow_srcWord_zero : narrow (srcWord s 0 0) = dstWord s 0 0 := by
  have hclass : classify (srcExponent (srcWord s 0 0)) (srcMantissa (srcWord s 0 0)) = .zero := by
    rw [srcExponent_srcWord, srcMantissa_srcWord]
    rfl
  rw [narrow, narrowWith_zero hclass, srcSign_srcWord]
  rfl

/-- An infinity is the result of the source infinity of its sign (R138). -/
theorem narrow_srcWord_infinity : narrow (srcWord s srcExpOnesField 0) = dstWord s dstExpOnesField 0 := by
  have hclass : classify (srcExponent (srcWord s srcExpOnesField 0))
      (srcMantissa (srcWord s srcExpOnesField 0)) = .infinity := by
    rw [srcExponent_srcWord, srcMantissa_srcWord]
    rfl
  rw [narrow, narrowWith_infinity hclass, srcSign_srcWord]
  rfl

/-- A mantissa field with 60 zeros below it is the source field of the same fraction or payload. -/
theorem append_zeros_toNat (m : DstMant) : (m ++ 0#60 : SrcMant).toNat = m.toNat * 2 ^ 60 := by
  rw [toNat_append_eq, BitVec.toNat_zero, add_zero]

theorem extractLsb'_append_zeros (m : DstMant) : (m ++ 0#60 : SrcMant).extractLsb' 60 52 = m := by
  have hm := m.isLt
  apply BitVec.eq_of_toNat_eq
  rw [BitVec.extractLsb'_toNat, append_zeros_toNat, Nat.shiftRight_eq_div_pow,
    Nat.mul_div_cancel _ (by decide), Nat.mod_eq_of_lt hm]

/-- Quieting a quiet payload changes nothing. -/
theorem quieted_eq_self (h : m.getLsbD 51 = true) : m ||| 0x8000000000000#52 = m := by
  apply BitVec.eq_of_getLsbD_eq
  intro i _
  rw [getLsbD_quieted]
  by_cases hi : i = 51
  · rw [hi, h, Bool.or_true]
  · rw [decide_eq_false hi, Bool.false_or]

/-- A quiet NaN is the result of the source NaN with its payload (R139). -/
theorem narrow_of_nan (hquiet : m.getLsbD 51 = true) :
    narrow (srcWord s srcExpOnesField (m ++ 0#60)) = dstWord s dstExpOnesField m := by
  have hne : (m ++ 0#60 : SrcMant) ≠ 0 := by
    intro hzero
    have hm := extractLsb'_append_zeros m
    rw [hzero] at hm
    rw [← hm] at hquiet
    exact absurd hquiet (by decide)
  have hclass : classify (srcExponent (srcWord s srcExpOnesField (m ++ 0#60)))
      (srcMantissa (srcWord s srcExpOnesField (m ++ 0#60))) = .nan := by
    rw [srcExponent_srcWord, srcMantissa_srcWord, classify_ones_exp (by decide), if_neg hne]
  rw [narrow, narrowWith_nan hclass, srcSign_srcWord, srcMantissa_srcWord, packNan, dstQuiet_eq,
    extractLsb'_append_zeros, quieted_eq_self hquiet]

/-- A normal word is the result of the source word with its value, whose significand is a multiple of
2^60. -/
theorem narrow_of_normal (hlo : 1 ≤ e.toNat) (hhi : e.toNat ≤ 2046) (m : DstMant) :
    narrow (srcWord s (BitVec.ofNat 15 (e.toNat + 0x3C00)) (m ++ 0#60)) = dstWord s e m := by
  have hE : (BitVec.ofNat 15 (e.toNat + 0x3C00)).toNat = e.toNat + 0x3C00 := by
    rw [BitVec.toNat_ofNat, Nat.mod_eq_of_lt (by omega)]
  have hsig : 2 ^ 112 + (m ++ 0#60 : SrcMant).toNat = (2 ^ 52 + m.toNat) * 2 ^ 60 := by
    rw [append_zeros_toNat]
    omega
  have hcode : (e.toNat + 0x3C00 - 0x3C01) * 2 ^ 52 + (2 ^ 52 + m.toNat)
      = e.toNat * 2 ^ 52 + m.toNat := by omega
  rw [narrow_srcWord_normal s _ (by omega) (by omega), hE, hsig, roundShift_mul_two_pow, hcode,
    dstWord_eq_signCode]

/-- A subnormal word whose leading one is bit j is the result of the source Normal with its value, whose
significand is a multiple of 2^(112 - j). -/
theorem narrow_of_subnormal (hj : j < 52) (hlo : 2 ^ j ≤ m.toNat) (hhi : m.toNat < 2 ^ (j + 1)) :
    narrow (srcWord s (BitVec.ofNat 15 (0x3BCD + j)) (BitVec.ofNat 112 (m.toNat * 2 ^ (112 - j) - 2 ^ 112)))
      = dstWord s 0 m := by
  have hE : (BitVec.ofNat 15 (0x3BCD + j)).toNat = 0x3BCD + j := by
    rw [BitVec.toNat_ofNat, Nat.mod_eq_of_lt (by omega)]
  have hleading : 2 ^ 112 ≤ m.toNat * 2 ^ (112 - j) := by
    calc 2 ^ 112
      _ = 2 ^ j * 2 ^ (112 - j) := by rw [← pow_add, Nat.add_sub_cancel' (by omega)]
      _ ≤ m.toNat * 2 ^ (112 - j) := Nat.mul_le_mul_right _ hlo
  have hbound : m.toNat * 2 ^ (112 - j) < 2 ^ 113 := by
    calc m.toNat * 2 ^ (112 - j)
      _ < 2 ^ (j + 1) * 2 ^ (112 - j) := Nat.mul_lt_mul_of_pos_right hhi (by positivity)
      _ = 2 ^ 113 := by rw [← pow_add, show j + 1 + (112 - j) = 113 by omega]
  have hsig : 2 ^ 112 + (BitVec.ofNat 112 (m.toNat * 2 ^ (112 - j) - 2 ^ 112)).toNat
      = m.toNat * 2 ^ (112 - j) := by
    rw [BitVec.toNat_ofNat, Nat.mod_eq_of_lt (by omega), Nat.add_sub_cancel' hleading]
  have hshift : 60 + (15361 - (0x3BCD + j)) = 112 - j := by omega
  rw [narrow_srcWord_subnormal s _ (by omega) (by omega), hE, hsig, hshift, roundShift_mul_two_pow,
    dstWord_eq_signCode]
  simp

end

/-- Each producible word is the result of the operand of its own class, or of the Normal with its value. -/
theorem exists_narrow_eq_of_producible {d : Double} (h : Producible d) : ∃ src, narrow src = d := by
  obtain ⟨s, e, m, rfl⟩ : ∃ s e m, d = dstWord s e m := ⟨_, _, _, (dstWord_fields d).symm⟩
  rw [producible_iff, dstExponent_dstWord, dstMantissa_dstWord] at h
  have he := e.isLt
  by_cases hzero : e.toNat = 0
  · obtain rfl : e = 0 := BitVec.eq_of_toNat_eq hzero
    by_cases hm : m.toNat = 0
    · obtain rfl : m = 0 := BitVec.eq_of_toNat_eq hm
      exact ⟨_, narrow_srcWord_zero s⟩
    · exact ⟨_, narrow_of_subnormal s ((Nat.log2_lt hm).mpr m.isLt) (Nat.log2_self_le hm) Nat.lt_log2_self⟩
  by_cases hones : e.toNat = 2047
  · obtain rfl : e = dstExpOnesField := BitVec.eq_of_toNat_eq (hones.trans dstExpOnesField_toNat.symm)
    by_cases hm : m = 0
    · rw [hm]
      exact ⟨_, narrow_srcWord_infinity s⟩
    · exact ⟨_, narrow_of_nan s (h hones hm)⟩
  · exact ⟨_, narrow_of_normal s (by omega) (by omega) m⟩

/-- The smallest source subnormal is flushed to the result of a zero (R141). -/
theorem narrow_smallest_subnormal : narrow (srcWord 0 0 1) = narrow (srcWord 0 0 0) := by
  rw [narrow_srcWord_zero, narrow, narrowWith_subnormal (by decide) (by decide), srcSign_srcWord]
  rfl

/-- Settles O47: the results are the packer's words, each of which has an operand; a zero and a flushed
operand of one sign have one result. -/
theorem resultsAreExactlyTheProducibleWords : Obligations.ResultsAreExactlyTheProducibleWords := by
  unfold Obligations.ResultsAreExactlyTheProducibleWords
  refine ⟨fun d => ⟨?_, exists_narrow_eq_of_producible⟩, _, _, ?_, narrow_smallest_subnormal⟩
  · rintro ⟨src, rfl⟩
    exact producible_narrow src
  · decide

end Sys2Proof.Machine
end

section
/-! The laws of a step and of the sign (spec/45_properties.md R150 to R152, R157, R158, R160): a step drives
the result of its operand, whose sign is the operand's and enters nothing else. -/

namespace Sys2Proof.Machine

/-! ## A step and an instruction -/

/-- Settles O50: a step evaluates the operand on `src`, and an evaluation completes. -/
theorem everyStateStepsToItsResult : Obligations.EveryStateStepsToItsResult := by
  unfold Obligations.EveryStateStepsToItsResult
  intro s
  rw [step_eq_complete]
  exact complete_eq_next _ s

/-- Settles O51: every meaning is one `complete`, whose word is made of the instruction's own fields. -/
theorem everyInstructionDrivesOnlyItsResult : Obligations.EveryInstructionDrivesOnlyItsResult := by
  unfold Obligations.EveryInstructionDrivesOnlyItsResult
  intro i
  cases i <;> exact ⟨_, complete_eq_next _⟩

/-- Settles O40: a step drives the operand's result, which is computed. -/
theorem oneIsTheTextbookPattern : Obligations.OneIsTheTextbookPattern := by
  unfold Obligations.OneIsTheTextbookPattern
  intro old
  have hone : narrow 0x3FFF0000000000000000000000000000#128 = 0x3FF0000000000000#64 := by decide
  rw [everyStateStepsToItsResult, hone]

/-! ## The sign -/

theorem srcSign_getLsbD (src : Quad) : (srcSign src).getLsbD 0 = src.getLsbD 127 := by
  simp [srcSign]

theorem dstSignOf_getLsbD (d : Double) : (dstSignOf d).getLsbD 0 = d.getLsbD 63 := by
  simp [dstSignOf]

/-- The sign fields agree when the top bits do. -/
theorem dstSignOf_eq_srcSign_iff {d : Double} {src : Quad} :
    dstSignOf d = srcSign src ↔ d.getLsbD 63 = src.getLsbD 127 := by
  rw [← dstSignOf_getLsbD, ← srcSign_getLsbD]
  refine ⟨fun h => by rw [h], fun h => BitVec.eq_of_getLsbD_eq fun i hi => ?_⟩
  obtain rfl : i = 0 := by omega
  exact h

/-- Settles O38: a step drives the operand's result, which has the operand's sign. -/
theorem signIsPreserved : Obligations.SignIsPreserved := by
  unfold Obligations.SignIsPreserved
  intro s t h
  rw [step_next_iff.mp h, State.driveDst_dst]
  exact dstSignOf_eq_srcSign_iff.mp (dstSignOf_narrow s.src)

/-! ## Infinities, NaNs and zeros -/

/-- Settles O39: the packer's rule of each special class. -/
theorem specialValuesMapToSpecialValues : Obligations.SpecialValuesMapToSpecialValues := by
  unfold Obligations.SpecialValuesMapToSpecialValues
  refine ⟨narrow_srcWord_infinity 0, narrow_srcWord_infinity 1, narrow_srcWord_zero 0,
    narrow_srcWord_zero 1, fun src hnan => ?_⟩
  rw [narrow, narrowWith_nan hnan]
  refine ⟨dstClass_packNan _ _, ?_⟩
  rw [getLsbD_packNan _ _ (by decide)]
  rfl

/-! ## The other sign -/

/-- The same Decomposed Value with the other sign. -/
def Decomposed.negate (d : Decomposed) : Decomposed := { d with sign := ~~~ d.sign }

theorem decompose_neg128 (src : Quad) : decompose (neg128 src) = (decompose src).negate := by
  have hneg : neg128 src = srcWord (~~~ srcSign src) (srcExponent src) (srcMantissa src) := xor_signMask src
  rw [hneg]
  simp [decompose, Decomposed.negate]

/-- The other sign above the same exponent and mantissa fields. -/
theorem neg64_dstWord (s : Bit) (e : DstExp) (m : DstMant) :
    neg64 (dstWord s e m) = dstWord (~~~ s) e m := by
  have hsign : Config.dstSign = BitVec.allOnes 1 ++ 0#11 ++ 0#52 := by decide
  rw [neg64, hsign, dstWord, BitVec.xor_append, BitVec.xor_append, BitVec.xor_allOnes, BitVec.xor_zero,
    BitVec.xor_zero]
  rfl

theorem packEngine_not_sign (s : Bit) (x : EngineSignals) :
    packEngine (~~~ s) x = neg64 (packEngine s x) := by
  cases x with
  | overflowPre a => exact (neg64_dstWord _ _ _).symm
  | flush a e0 => exact (neg64_dstWord _ _ _).symm
  | rounded a e0 r b =>
    rw [packEngine, packEngine, packRounded, packRounded]
    split <;> exact (neg64_dstWord _ _ _).symm

/-- The packer places the sign, and nothing else of an evaluation reads it (R136). -/
theorem pack_negate (limit : Nat) (d : Decomposed) : pack limit d.negate = neg64 (pack limit d) := by
  obtain ⟨s, e, m, cls⟩ := d
  cases cls with
  | zero | infinity | nan => exact (neg64_dstWord _ _ _).symm
  | subnormal | normal => exact packEngine_not_sign _ _

/-- Settles O41: the operand with the other sign decomposes to the same fields under the other sign. -/
theorem negationCommutesWithNarrowing : Obligations.NegationCommutesWithNarrowing := by
  unfold Obligations.NegationCommutesWithNarrowing
  intro src
  rw [narrow, narrow, narrowWith, narrowWith, decompose_neg128, pack_negate]

end Sys2Proof.Machine
end

section
/-! The value of a magnitude code (spec/30_encoding.md R59, spec/45_properties.md R154): in either format the
codes of an exponent field are evenly spaced, and the value increases strictly with the code. -/

namespace Sys2Proof.Machine

variable (f : Config.FormatDescriptor)

/-- The value of the non-negative word of a format with this magnitude code, R154's g for either format. -/
def formatValue (n : Nat) : ℚ := magnitude f (n / 2 ^ f.mantissaBits) (n % 2 ^ f.mantissaBits)

theorem codeValue_eq (n : Nat) : codeValue n = formatValue Config.dstFormat n := rfl

theorem srcMagnitude_eq_formatValue (w : Quad) : srcMagnitude w = formatValue Config.srcFormat (srcCode w) := by
  have he : (srcExponent w).toNat = srcCode w / 2 ^ 112 := by
    rw [srcExponent_toNat, srcCode_eq]
    omega
  have hm : (srcMantissa w).toNat = srcCode w % 2 ^ 112 := by
    rw [srcMantissa_toNat, srcCode_eq]
    omega
  rw [srcMagnitude, he, hm]
  rfl

theorem dstMagnitude_eq_codeValue (d : Double) : dstMagnitude d = codeValue (dstCode d) := by
  have he : (dstExponent d).toNat = dstCode d / 2 ^ 52 := by
    rw [dstExponent_toNat, dstCode_eq]
    omega
  have hm : (dstMantissa d).toNat = dstCode d % 2 ^ 52 := by
    rw [dstMantissa_toNat, dstCode_eq]
    omega
  rw [dstMagnitude, he, hm]
  rfl

/-- The distance of neighbouring codes whose exponent field is j + 1, or 0 for j = 0. -/
def spacing (j : Nat) : ℚ := (2 : ℚ) ^ ((j : Int) + 1 - f.exponentBias - f.mantissaBits)

theorem spacing_pos (j : Nat) : 0 < spacing f j := by
  rw [spacing]
  positivity

theorem spacing_succ (j : Nat) : spacing f (j + 1) = 2 * spacing f j := by
  rw [spacing, spacing, ← zpow_one_add₀ two_ne_zero]
  congr 1
  push_cast
  ring

theorem two_pow_mantissaBits_mul_spacing (j : Nat) :
    (2 : ℚ) ^ f.mantissaBits * spacing f j = (2 : ℚ) ^ ((j : Int) + 1 - f.exponentBias) := by
  rw [spacing, ← zpow_natCast, ← zpow_add₀ two_ne_zero, add_sub_cancel]

theorem magnitude_zero (m : Nat) : magnitude f 0 m = m * spacing f 0 := by
  have hunit := two_pow_mantissaBits_mul_spacing f 0
  rw [Nat.cast_zero, zero_add] at hunit
  rw [magnitude, if_pos rfl, ← hunit, ← mul_assoc, div_mul_cancel₀ _ (by positivity)]

theorem magnitude_succ (j m : Nat) : magnitude f (j + 1) m = (2 ^ f.mantissaBits + m) * spacing f j := by
  have hunit := two_pow_mantissaBits_mul_spacing f j
  rw [magnitude, if_neg (Nat.succ_ne_zero j), Nat.cast_add, Nat.cast_one, ← hunit, ← mul_assoc, one_add_mul,
    div_mul_cancel₀ _ (by positivity)]

variable {f} {j s : Nat}

theorem formatValue_fields {e m : Nat} (hm : m < 2 ^ f.mantissaBits) :
    formatValue f (e * 2 ^ f.mantissaBits + m) = magnitude f e m := by
  rw [formatValue, Nat.add_comm, Nat.add_mul_div_right _ _ (Nat.two_pow_pos _), Nat.add_mul_mod_self_right,
    Nat.div_eq_of_lt hm, Nat.mod_eq_of_lt hm, Nat.zero_add]

/-- The codes of one exponent field stand for multiples of its spacing, and so does the code after them. -/
theorem formatValue_eq (hlo : j = 0 ∨ 2 ^ f.mantissaBits ≤ s) (hhi : s ≤ 2 ^ (f.mantissaBits + 1)) :
    formatValue f (j * 2 ^ f.mantissaBits + s) = s * spacing f j := by
  rw [pow_succ'] at hhi
  by_cases hsub : s < 2 ^ f.mantissaBits
  · obtain rfl : j = 0 := by omega
    rw [formatValue_fields hsub, magnitude_zero]
  obtain ⟨m, rfl⟩ := Nat.exists_eq_add_of_le (not_lt.mp hsub)
  by_cases hm : m < 2 ^ f.mantissaBits
  · have hcode : j * 2 ^ f.mantissaBits + (2 ^ f.mantissaBits + m)
        = (j + 1) * 2 ^ f.mantissaBits + m := by ring
    rw [hcode, formatValue_fields hm, magnitude_succ]
    push_cast
    rfl
  · obtain rfl : m = 2 ^ f.mantissaBits := by omega
    have hcode : j * 2 ^ f.mantissaBits + (2 ^ f.mantissaBits + 2 ^ f.mantissaBits)
        = (j + 1 + 1) * 2 ^ f.mantissaBits + 0 := by ring
    rw [hcode, formatValue_fields (Nat.two_pow_pos _), magnitude_succ, spacing_succ]
    push_cast
    ring

/-- Every code lies in one such run. -/
theorem exists_run (f : Config.FormatDescriptor) (n : Nat) :
    ∃ j s, n = j * 2 ^ f.mantissaBits + s ∧ (j = 0 ∨ 2 ^ f.mantissaBits ≤ s) ∧
      s < 2 ^ (f.mantissaBits + 1) := by
  have hdiv := Nat.div_add_mod' n (2 ^ f.mantissaBits)
  have hmod := Nat.mod_lt n (Nat.two_pow_pos f.mantissaBits)
  rw [pow_succ']
  cases hfield : n / 2 ^ f.mantissaBits with
  | zero => exact ⟨0, n, by omega, .inl rfl, by rw [hfield] at hdiv; omega⟩
  | succ j =>
    rw [hfield, Nat.succ_mul] at hdiv
    exact ⟨j, 2 ^ f.mantissaBits + n % 2 ^ f.mantissaBits, by omega, .inr (by omega), by omega⟩

/-- The value increases strictly with the code. -/
theorem formatValue_strictMono (f : Config.FormatDescriptor) : StrictMono (formatValue f) := by
  refine strictMono_nat_of_lt_succ fun n => ?_
  obtain ⟨j, s, rfl, hlo, hhi⟩ := exists_run f n
  rw [Nat.add_assoc, formatValue_eq hlo hhi.le, formatValue_eq (by omega) hhi]
  exact mul_lt_mul_of_pos_right (by exact_mod_cast Nat.lt_succ_self s) (spacing_pos f j)

theorem codeValue_strictMono : StrictMono codeValue := formatValue_strictMono Config.dstFormat

/-- `formatValue_eq` for a destination code. -/
theorem codeValue_run (hlo : j = 0 ∨ 2 ^ 52 ≤ s) (hhi : s ≤ 2 ^ 53) :
    codeValue (j * 2 ^ 52 + s) = s * (2 : ℚ) ^ ((j : Int) - 1074) := by
  refine (codeValue_eq _).trans ((formatValue_eq (f := Config.dstFormat) hlo hhi).trans ?_)
  rw [spacing, show ((j : Int) + 1 - Config.dstFormat.exponentBias - Config.dstFormat.mantissaBits)
    = (j : Int) - 1074 by simp only [Config.dstFormat]; omega]

theorem codeValue_zero : codeValue 0 = 0 := by
  simpa using codeValue_run (j := 0) (s := 0) (.inl rfl) (by decide)

/-- `formatValue_eq` for a source code. -/
theorem srcFormatValue_run (hlo : j = 0 ∨ 2 ^ 112 ≤ s) (hhi : s ≤ 2 ^ 113) :
    formatValue Config.srcFormat (j * 2 ^ 112 + s) = s * (2 : ℚ) ^ ((j : Int) - 16494) := by
  refine (formatValue_eq (f := Config.srcFormat) hlo hhi).trans ?_
  rw [spacing, show ((j : Int) + 1 - Config.srcFormat.exponentBias - Config.srcFormat.mantissaBits)
    = (j : Int) - 16494 by simp only [Config.srcFormat]; omega]

end Sys2Proof.Machine
end

section
/-! Rounding to nearest, ties to even, by the midpoints of neighbouring codes (spec/45_properties.md R154): the
code of a value is the number of midpoints that it is past. -/

namespace Sys2Proof.Machine

variable {v w : ℚ} {m n q : Nat}

/-- The value is rounded to a code above m: it exceeds the midpoint of the codes m and m + 1, or it is the
midpoint and m is odd. -/
def PastMidpoint (v : ℚ) (m : Nat) : Prop :=
  codeValue m + codeValue (m + 1) < 2 * v ∨ (codeValue m + codeValue (m + 1) = 2 * v ∧ m % 2 = 1)

/-- n is the code that v is rounded to, the code of infinity taken as one more code after the finite ones. -/
structure RoundsTo (v : ℚ) (n : Nat) : Prop where
  le_infinity : n ≤ maxFiniteCode + 1
  lt_iff : ∀ m ≤ maxFiniteCode, m < n ↔ PastMidpoint v m

theorem PastMidpoint.le (h : PastMidpoint v m) : codeValue m + codeValue (m + 1) ≤ 2 * v := by
  rcases h with h | h
  · exact h.le
  · exact h.1.le

theorem le_of_not_pastMidpoint (h : ¬ PastMidpoint v m) : 2 * v ≤ codeValue m + codeValue (m + 1) :=
  not_lt.mp fun hlt => h (.inl hlt)

theorem PastMidpoint.mono (hvw : v ≤ w) (h : PastMidpoint v m) : PastMidpoint w m := by
  rcases h with h | ⟨h, hodd⟩
  · exact .inl (by linarith)
  rcases hvw.eq_or_lt with rfl | hlt
  · exact .inr ⟨h, hodd⟩
  · exact .inl (by linarith)

/-- Rounding is monotone. -/
theorem RoundsTo.mono (hv : RoundsTo v m) (hw : RoundsTo w n) (h : v ≤ w) : m ≤ n := by
  by_contra! hlt
  have hn : n ≤ maxFiniteCode := by have := hv.le_infinity; omega
  exact lt_irrefl n ((hw.lt_iff n hn).mpr (((hv.lt_iff n hn).mp hlt).mono h))

/-- The rounded code is unique. -/
theorem RoundsTo.unique (hm : RoundsTo v m) (hn : RoundsTo v n) : m = n :=
  le_antisymm (hm.mono hn le_rfl) (hn.mono hm le_rfl)

/-- A value between neighbouring codes is rounded to the lower or the upper one. -/
theorem roundsTo_of_mem_run (hlo : codeValue q ≤ v) (hhi : v < codeValue (q + 1)) (hq : q ≤ maxFiniteCode)
    (hn : (n = q ∧ ¬ PastMidpoint v q) ∨ (n = q + 1 ∧ PastMidpoint v q)) : RoundsTo v n := by
  have hmono {a b : Nat} (hab : a ≤ b) : codeValue a ≤ codeValue b := codeValue_strictMono.monotone hab
  refine ⟨by omega, fun m _ => ?_⟩
  have hstrict := codeValue_strictMono m.lt_succ_self
  rcases lt_trichotomy m q with hlt | rfl | hgt
  · have hnext := hmono hlt
    exact iff_of_true (by omega) (.inl (by linarith))
  · rcases hn with ⟨rfl, hpast⟩ | ⟨rfl, hpast⟩
    · exact iff_of_false (lt_irrefl _) hpast
    · exact iff_of_true m.lt_succ_self hpast
  · have hnext := hmono hgt
    refine iff_of_false (by omega) fun hpast => ?_
    have hle := hpast.le
    linarith

/-- A destination value is rounded to itself. -/
theorem roundsTo_codeValue (hq : q ≤ maxFiniteCode) : RoundsTo (codeValue q) q := by
  have hlt := codeValue_strictMono q.lt_succ_self
  exact roundsTo_of_mem_run le_rfl hlt hq (.inl ⟨rfl, fun hpast => by have hle := hpast.le; linarith⟩)

/-- From the value that the code of infinity would have, everything is rounded to infinity. -/
theorem roundsTo_infinity (h : codeValue (maxFiniteCode + 1) ≤ v) : RoundsTo v (maxFiniteCode + 1) := by
  refine ⟨le_rfl, fun m hm => iff_of_true (by omega) (.inl ?_)⟩
  have hnext := codeValue_strictMono.monotone (Nat.succ_le_succ hm)
  have hstrict := codeValue_strictMono m.lt_succ_self
  linarith

/-- The code that a value is rounded to, when it is finite, is the nearest, the even one of two (R154). -/
theorem RoundsTo.nearestEven (h : RoundsTo v n) (hn : n ≤ maxFiniteCode) : NearestEven v n := by
  refine ⟨hn, fun m hm => ?_⟩
  rcases lt_trichotomy m n with hlt | rfl | hgt
  · obtain ⟨p, rfl⟩ : ∃ p, n = p + 1 := ⟨n - 1, by omega⟩
    have hpast := (h.lt_iff p (by omega)).mp p.lt_succ_self
    have hle := hpast.le
    have hmp := codeValue_strictMono.monotone (Nat.le_of_lt_succ hlt)
    have hpn := codeValue_strictMono p.lt_succ_self
    rw [abs_of_nonpos (by linarith : codeValue m - v ≤ 0)]
    refine ⟨abs_le.mpr ⟨by linarith, by linarith⟩, fun _ htie => ?_⟩
    rcases hpast with hpast | ⟨-, hodd⟩
    · rcases abs_cases (codeValue (p + 1) - v) with ⟨habs, -⟩ | ⟨habs, -⟩ <;> linarith
    · omega
  · exact ⟨le_rfl, fun hne => absurd rfl hne⟩
  · have hpast : ¬ PastMidpoint v n := fun hpast => lt_irrefl n ((h.lt_iff n hn).mpr hpast)
    have hle := le_of_not_pastMidpoint hpast
    have hnm := codeValue_strictMono.monotone (Nat.succ_le_of_lt hgt)
    have hstrict := codeValue_strictMono n.lt_succ_self
    rw [abs_of_nonneg (by linarith : 0 ≤ codeValue m - v)]
    refine ⟨abs_le.mpr ⟨by linarith, by linarith⟩, fun _ htie => ?_⟩
    by_contra hodd
    refine hpast (.inr ⟨?_, by omega⟩)
    rcases abs_cases (codeValue n - v) with ⟨habs, -⟩ | ⟨habs, -⟩ <;> linarith

end Sys2Proof.Machine
end

section
/-! A value as an integer over a shift, in a run of evenly spaced codes: the codes around it, and that one
`roundShift` (spec/43_mantissa_rounder_shifter.md R124) is rounding to nearest even. -/

namespace Sys2Proof.Machine

variable {v : ℚ} {j sig shift : Nat}

/-- v is `sig` shifted right by `shift`, in units of the run of codes from `j * 2^52` on. -/
structure InRun (v : ℚ) (j sig shift : Nat) : Prop where
  value : v = sig * (2 : ℚ) ^ ((j : Int) - 1074 - shift)
  normalized : j = 0 ∨ 2 ^ 52 ≤ sig / 2 ^ shift
  quotient_lt : sig / 2 ^ shift < 2 ^ 53
  run_le : j ≤ 2045

/-- The unit of the run, in units of v's own last place. -/
theorem two_zpow_run (j shift : Nat) :
    (2 : ℚ) ^ ((j : Int) - 1074) = (2 ^ shift : Nat) * (2 : ℚ) ^ ((j : Int) - 1074 - shift) := by
  rw [Nat.cast_pow, Nat.cast_ofNat, ← zpow_natCast, ← zpow_add₀ two_ne_zero, add_sub_cancel]

namespace InRun

variable (h : InRun v j sig shift)
include h

theorem code_le : j * 2 ^ 52 + sig / 2 ^ shift ≤ maxFiniteCode := by
  have hq := h.quotient_lt
  have hj := h.run_le
  simp only [maxFiniteCode]
  omega

/-- The code below v. -/
theorem codeValue_eq : codeValue (j * 2 ^ 52 + sig / 2 ^ shift)
    = (sig / 2 ^ shift * 2 ^ shift : Nat) * (2 : ℚ) ^ ((j : Int) - 1074 - shift) := by
  rw [codeValue_run h.normalized h.quotient_lt.le, two_zpow_run j shift, Nat.cast_mul, mul_assoc]

/-- The code above v. -/
theorem codeValue_succ_eq : codeValue (j * 2 ^ 52 + sig / 2 ^ shift + 1)
    = ((sig / 2 ^ shift + 1) * 2 ^ shift : Nat) * (2 : ℚ) ^ ((j : Int) - 1074 - shift) := by
  have hnormalized : j = 0 ∨ 2 ^ 52 ≤ sig / 2 ^ shift + 1 := h.normalized.imp_right (Nat.le_succ_of_le ·)
  rw [Nat.add_assoc, codeValue_run hnormalized h.quotient_lt, two_zpow_run j shift, Nat.cast_mul, mul_assoc]

theorem codeValue_le : codeValue (j * 2 ^ 52 + sig / 2 ^ shift) ≤ v := by
  rw [h.codeValue_eq, h.value]
  exact mul_le_mul_of_nonneg_right (by exact_mod_cast Nat.div_mul_le_self _ _) (by positivity)

theorem lt_codeValue_succ : v < codeValue (j * 2 ^ 52 + sig / 2 ^ shift + 1) := by
  rw [h.codeValue_succ_eq, h.value]
  have hlt : sig < (sig / 2 ^ shift + 1) * 2 ^ shift :=
    Nat.lt_mul_of_div_lt (Nat.lt_succ_self _) (by positivity)
  exact mul_lt_mul_of_pos_right (by exact_mod_cast hlt) (by positivity)

/-- The midpoint of the two codes is half of the shift's last place. -/
theorem pastMidpoint_iff : PastMidpoint v (j * 2 ^ 52 + sig / 2 ^ shift) ↔
    2 ^ shift < 2 * (sig % 2 ^ shift) ∨ (2 * (sig % 2 ^ shift) = 2 ^ shift ∧ sig / 2 ^ shift % 2 = 1) := by
  have hunit : (0 : ℚ) < 2 ^ ((j : Int) - 1074 - shift) := by positivity
  have hparity : (j * 2 ^ 52 + sig / 2 ^ shift) % 2 = sig / 2 ^ shift % 2 := by omega
  have hdiv := Nat.div_add_mod' sig (2 ^ shift)
  rw [PastMidpoint, h.codeValue_eq, h.codeValue_succ_eq, h.value, ← add_mul, ← mul_assoc,
    mul_lt_mul_iff_left₀ hunit, mul_left_inj' hunit.ne', hparity, Nat.succ_mul]
  norm_cast
  omega

theorem roundsTo : RoundsTo v (j * 2 ^ 52 + roundShift sig shift) := by
  refine roundsTo_of_mem_run h.codeValue_le h.lt_codeValue_succ h.code_le ?_
  rw [h.pastMidpoint_iff, roundShift]
  split
  · next hup => exact .inr ⟨(Nat.add_assoc _ _ _).symm, hup⟩
  · next hup => exact .inl ⟨rfl, hup⟩

/-- v is a destination value exactly when the shift discards nothing. -/
theorem exists_codeValue_eq_iff : (∃ n ≤ maxFiniteCode, codeValue n = v) ↔ sig % 2 ^ shift = 0 := by
  constructor
  · rintro ⟨n, -, hn⟩
    have hlo := h.codeValue_le
    have hhi := h.lt_codeValue_succ
    rw [← hn, codeValue_strictMono.le_iff_le] at hlo
    rw [← hn, codeValue_strictMono.lt_iff_lt] at hhi
    obtain rfl : n = j * 2 ^ 52 + sig / 2 ^ shift := by omega
    rw [h.codeValue_eq, h.value] at hn
    have hexact : sig / 2 ^ shift * 2 ^ shift = sig := by
      exact_mod_cast mul_right_cancel₀ (by positivity) hn
    exact Nat.mod_eq_zero_of_dvd ⟨_, by rw [Nat.mul_comm, hexact]⟩
  · intro hexact
    refine ⟨_, h.code_le, h.codeValue_eq.trans ?_⟩
    rw [Nat.div_mul_cancel (Nat.dvd_of_mod_eq_zero hexact), h.value]

end InRun

end Sys2Proof.Machine
end

section
/-! The magnitude code of a result (spec/44_ieee754_packer.md R135): what it is on each range of the source
exponent, and that it is the code that the source's magnitude is rounded to (spec/45_properties.md R154). -/

namespace Sys2Proof.Machine

variable {src : Quad}

/-! ## Magnitudes of source words -/

theorem srcCode_eq_fields (src : Quad) :
    srcCode src = (srcExponent src).toNat * 2 ^ 112 + (srcMantissa src).toNat := by
  rw [srcCode_eq, srcExponent_toNat, srcMantissa_toNat]
  omega

theorem srcMagnitude_le_iff {n : Nat} :
    srcMagnitude src ≤ formatValue Config.srcFormat n ↔ srcCode src ≤ n := by
  rw [srcMagnitude_eq_formatValue, (formatValue_strictMono _).le_iff_le]

theorem srcMagnitude_lt_iff {n : Nat} :
    srcMagnitude src < formatValue Config.srcFormat n ↔ srcCode src < n := by
  rw [srcMagnitude_eq_formatValue, (formatValue_strictMono _).lt_iff_lt]

theorem srcMagnitude_nonneg (src : Quad) : 0 ≤ srcMagnitude src := by
  have hzero : formatValue Config.srcFormat 0 = 0 := by
    simpa using srcFormatValue_run (j := 0) (s := 0) (.inl rfl) (by decide)
  rw [srcMagnitude_eq_formatValue, ← hzero]
  exact (formatValue_strictMono _).monotone (Nat.zero_le _)

/-- A word with a nonzero exponent code, as an integer in units of its last place. -/
theorem srcMagnitude_of_exponent_ne_zero (he : (srcExponent src).toNat ≠ 0) :
    srcMagnitude src = (2 ^ 112 + (srcMantissa src).toNat : Nat)
      * (2 : ℚ) ^ (((srcExponent src).toNat : Int) - 16495) := by
  have hm := (srcMantissa src).isLt
  have hcode : srcCode src
      = ((srcExponent src).toNat - 1) * 2 ^ 112 + (2 ^ 112 + (srcMantissa src).toNat) := by
    rw [srcCode_eq_fields]
    omega
  rw [srcMagnitude_eq_formatValue, hcode, srcFormatValue_run (.inr (by omega)) (by omega),
    show (((srcExponent src).toNat - 1 : Nat) : Int) - 16494 = (srcExponent src).toNat - 16495 by omega]

/-- The power of two with exponent code c and mantissa field 0. -/
theorem srcFormatValue_two_zpow {c : Nat} (hc : c ≠ 0) :
    formatValue Config.srcFormat (c * 2 ^ 112) = (2 : ℚ) ^ ((c : Int) - 16383) := by
  have hcode : c * 2 ^ 112 = (c - 1) * 2 ^ 112 + 2 ^ 112 := by omega
  rw [hcode, srcFormatValue_run (.inr le_rfl) (by decide), Nat.cast_pow, Nat.cast_ofNat, ← zpow_natCast,
    ← zpow_add₀ two_ne_zero]
  congr 1
  omega

/-- Comparing a magnitude with a power of two is comparing exponent codes. -/
theorem srcMagnitude_lt_two_zpow_iff {c : Nat} {t : Int} (ht : t = (c : Int) - 16383) (hc : c ≠ 0) :
    srcMagnitude src < (2 : ℚ) ^ t ↔ (srcExponent src).toNat < c := by
  have hm := (srcMantissa src).isLt
  rw [ht, ← srcFormatValue_two_zpow hc, srcMagnitude_lt_iff, srcCode_eq_fields]
  omega

theorem srcMagnitude_le_two_zpow_iff {c : Nat} {t : Int} (ht : t = (c : Int) - 16383) (hc : c ≠ 0) :
    srcMagnitude src ≤ (2 : ℚ) ^ t ↔
      (srcExponent src).toNat < c ∨ ((srcExponent src).toNat = c ∧ (srcMantissa src).toNat = 0) := by
  have hm := (srcMantissa src).isLt
  rw [ht, ← srcFormatValue_two_zpow hc, srcMagnitude_le_iff, srcCode_eq_fields]
  omega

/-- On the row of normal results a magnitude is its significand shifted by 60. -/
theorem inRun_normal (hlo : 0x3C01 ≤ (srcExponent src).toNat) (hhi : (srcExponent src).toNat ≤ 0x43FE) :
    InRun (srcMagnitude src) ((srcExponent src).toNat - 0x3C01) (2 ^ 112 + (srcMantissa src).toNat) 60 := by
  have hm := (srcMantissa src).isLt
  refine ⟨?_, .inr (by omega), by omega, by omega⟩
  rw [srcMagnitude_of_exponent_ne_zero (by omega), show ((srcExponent src).toNat : Int) - 16495
    = ((srcExponent src).toNat - 0x3C01 : Nat) - 1074 - (60 : Nat) by omega]

/-- From there down it is its significand shifted by 60 and the extra shift, in the lowest run of codes. -/
theorem inRun_subnormal (hlo : 1 ≤ (srcExponent src).toNat) (hhi : (srcExponent src).toNat ≤ 0x3C00) :
    InRun (srcMagnitude src) 0 (2 ^ 112 + (srcMantissa src).toNat)
      (60 + (15361 - (srcExponent src).toNat)) := by
  have hm := (srcMantissa src).isLt
  have hpow : 2 ^ 60 ≤ 2 ^ (60 + (15361 - (srcExponent src).toNat)) :=
    Nat.pow_le_pow_right (by decide) (by omega)
  refine ⟨?_, .inl rfl, ?_, by omega⟩
  · rw [srcMagnitude_of_exponent_ne_zero (by omega), show ((srcExponent src).toNat : Int) - 16495
      = (0 : Nat) - 1074 - (60 + (15361 - (srcExponent src).toNat) : Nat) by omega]
  · calc (2 ^ 112 + (srcMantissa src).toNat) / 2 ^ (60 + (15361 - (srcExponent src).toNat))
      _ ≤ (2 ^ 112 + (srcMantissa src).toNat) / 2 ^ 60 := Nat.div_le_div_left hpow (by decide)
      _ < 2 ^ 53 := by omega

/-! ## Results by their code -/

theorem double_ext {a b : Double} (hs : dstSignOf a = dstSignOf b) (hc : dstCode a = dstCode b) : a = b := by
  have hs' := congrArg BitVec.toNat hs
  have ha := a.isLt
  have hb := b.isLt
  rw [dstSignOf_toNat, dstSignOf_toNat] at hs'
  rw [dstCode_eq, dstCode_eq] at hc
  apply BitVec.eq_of_toNat_eq
  omega

theorem dstCode_dstWord (s : Bit) (e : DstExp) (m : DstMant) :
    dstCode (dstWord s e m) = e.toNat * 2 ^ 52 + m.toNat := by
  have he := e.isLt
  have hm := m.isLt
  rw [dstWord_eq_signCode, dstCode_signCode _ _ (by omega)]

/-- A result is known by its code, since its sign is the operand's. -/
theorem narrow_eq_iff {d : Double} (h : dstSignOf d = srcSign src) :
    narrow src = d ↔ dstCode (narrow src) = dstCode d :=
  ⟨congrArg dstCode, double_ext ((dstSignOf_narrow src).trans h.symm)⟩

theorem narrow_eq_dstWord_iff {e : DstExp} {m : DstMant} :
    narrow src = dstWord (srcSign src) e m ↔ dstCode (narrow src) = e.toNat * 2 ^ 52 + m.toNat := by
  rw [narrow_eq_iff (dstSignOf_dstWord _ _ _), dstCode_dstWord]

theorem narrow_eq_infinity_iff :
    narrow src = srcSign src ++ 0x7FF#11 ++ 0#52 ↔ dstCode (narrow src) = maxFiniteCode + 1 :=
  narrow_eq_dstWord_iff

theorem dstClass_isFinite_iff {d : Double} :
    FpClass.isFinite (dstClass d) = true ↔ dstCode d ≤ maxFiniteCode := by
  have he : (dstExponent d).toNat = dstCode d / 2 ^ 52 := by
    rw [dstExponent_toNat, dstCode_eq]
    omega
  have hd : dstCode d < 2 ^ 63 := by
    rw [dstCode_eq]
    omega
  simp only [dstClass, Config.dstExpOnes_eq, maxFiniteCode, he]
  split_ifs
  · exact iff_of_true rfl (by omega)
  · exact iff_of_true rfl (by omega)
  · exact iff_of_false Bool.false_ne_true (by omega)
  · exact iff_of_false Bool.false_ne_true (by omega)
  · exact iff_of_true rfl (by omega)

/-! ## The code on each range of the source exponent -/

theorem dstCode_narrow_overflow (hnan : srcClass src ≠ .nan) (he : 0x43FF ≤ (srcExponent src).toNat) :
    dstCode (narrow src) = maxFiniteCode + 1 := by
  have hlt := (srcExponent src).isLt
  rw [← narrow_eq_infinity_iff, ← packInfinity_eq_fields]
  by_cases hones : (srcExponent src).toNat = 32767
  · rw [srcClass, classify_ones_exp hones] at hnan
    have hm : srcMantissa src = 0 := by
      by_contra hm
      exact hnan (if_neg hm)
    exact narrowWith_infinity (by rw [classify_ones_exp hones, if_pos hm])
  · exact narrowWith_overflow (classify_normal (by omega) hones) he

theorem dstCode_narrow_normal (hlo : 0x3C01 ≤ (srcExponent src).toNat)
    (hhi : (srcExponent src).toNat ≤ 0x43FE) :
    dstCode (narrow src) = ((srcExponent src).toNat - 0x3C01) * 2 ^ 52
      + roundShift (2 ^ 112 + (srcMantissa src).toNat) 60 := by
  have hword := narrow_srcWord_normal (srcSign src) (srcMantissa src) hlo hhi
  have hle := (inRun_normal hlo hhi).roundsTo.le_infinity
  simp only [maxFiniteCode] at hle
  rw [srcWord_fields] at hword
  rw [hword, dstCode_signCode _ _ (by omega)]

theorem dstCode_narrow_subnormal (hlo : 0x3BCC ≤ (srcExponent src).toNat)
    (hhi : (srcExponent src).toNat ≤ 0x3C00) :
    dstCode (narrow src) = roundShift (2 ^ 112 + (srcMantissa src).toNat)
      (60 + (15361 - (srcExponent src).toNat)) := by
  have hword := narrow_srcWord_subnormal (srcSign src) (srcMantissa src) hlo hhi
  have hle := (inRun_subnormal (by omega) hhi).roundsTo.le_infinity
  simp only [maxFiniteCode] at hle
  rw [srcWord_fields] at hword
  rw [hword, dstCode_signCode _ _ (by omega)]

theorem dstCode_narrow_flush (he : (srcExponent src).toNat ≤ 0x3BCB) : dstCode (narrow src) = 0 := by
  refine (narrow_eq_dstWord_iff (e := 0) (m := 0)).mp ?_
  rcases classify_cases (srcExponent src) (srcMantissa src) with
    ⟨-, -, hc⟩ | ⟨-, -, hc⟩ | ⟨hones, -, -⟩ | ⟨hones, -, -⟩ | ⟨-, -, hc⟩
  · exact narrowWith_zero hc
  · exact narrowWith_subnormal (by decide) hc
  · omega
  · omega
  · exact narrowWith_flush hc (by rw [Config.flushLimit_eq]; omega)

/-! ## The code is the rounded magnitude -/

/-- The least subnormal. -/
theorem codeValue_one : codeValue 1 = (2 : ℚ) ^ (-1074 : Int) := by
  simpa using codeValue_run (j := 0) (s := 1) (.inl rfl) (by decide)

/-- The midpoint of the codes 0 and 1 is 2^-1075. -/
theorem codeValue_zero_add_one : codeValue 0 + codeValue (0 + 1) = 2 * (2 : ℚ) ^ (-1075 : Int) := by
  rw [codeValue_zero, zero_add, codeValue_one, ← zpow_one_add₀ two_ne_zero]
  rfl

/-- A magnitude of at most half of the least subnormal is rounded to 0, the even code of the two. -/
theorem roundsTo_zero {v : ℚ} (h0 : 0 ≤ v) (h : v ≤ (2 : ℚ) ^ (-1075 : Int)) : RoundsTo v 0 := by
  have hmid := codeValue_zero_add_one
  have hpos : (0 : ℚ) < 2 ^ (-1075 : Int) := by positivity
  rw [codeValue_zero, zero_add] at hmid
  refine roundsTo_of_mem_run (q := 0) (by rwa [codeValue_zero]) (by linarith) (by decide) (.inl ⟨rfl, ?_⟩)
  rintro (hpast | ⟨-, hodd⟩)
  · rw [codeValue_zero_add_one] at hpast
    linarith
  · exact absurd hodd (by decide)

/-- Above that midpoint, up to the code 1, a magnitude is rounded to 1. -/
theorem roundsTo_one {v : ℚ} (hlo : (2 : ℚ) ^ (-1075 : Int) < v) (hhi : v < (2 : ℚ) ^ (-1074 : Int)) :
    RoundsTo v 1 := by
  have hpos : (0 : ℚ) < 2 ^ (-1075 : Int) := by positivity
  refine roundsTo_of_mem_run (q := 0) ?_ (by rwa [codeValue_one]) (by decide) (.inr ⟨rfl, .inl ?_⟩)
  · rw [codeValue_zero]
    linarith
  · rw [codeValue_zero_add_one]
    linarith

theorem codeValue_infinity : codeValue (maxFiniteCode + 1) = (2 : ℚ) ^ (1024 : Int) := by
  refine (codeValue_run (j := 2045) (s := 2 ^ 53) (.inr (by decide)) le_rfl).trans ?_
  rw [Nat.cast_pow, Nat.cast_ofNat, ← zpow_natCast, ← zpow_add₀ two_ne_zero]
  rfl

/-- The correctness of the operation: the code of a result is the one that the operand's magnitude is rounded
to. An infinity has the magnitude that the formula of R59 gives its fields, which lies beyond every finite
code. -/
theorem roundsTo_dstCode_narrow (hnan : srcClass src ≠ .nan) :
    RoundsTo (srcMagnitude src) (dstCode (narrow src)) := by
  by_cases hov : 0x43FF ≤ (srcExponent src).toNat
  · rw [dstCode_narrow_overflow hnan hov]
    refine roundsTo_infinity ?_
    rw [codeValue_infinity]
    exact not_lt.mp (mt (srcMagnitude_lt_two_zpow_iff (c := 0x43FF) rfl (by decide)).mp (not_lt.mpr hov))
  by_cases hnormal : 0x3C01 ≤ (srcExponent src).toNat
  · rw [dstCode_narrow_normal hnormal (by omega)]
    exact (inRun_normal hnormal (by omega)).roundsTo
  by_cases hsub : 0x3BCC ≤ (srcExponent src).toNat
  · have hround := (inRun_subnormal (src := src) (by omega) (by omega)).roundsTo
    rw [dstCode_narrow_subnormal hsub (by omega)]
    rwa [Nat.zero_mul, Nat.zero_add] at hround
  · rw [dstCode_narrow_flush (by omega)]
    exact roundsTo_zero (srcMagnitude_nonneg src)
      ((srcMagnitude_le_two_zpow_iff (c := 0x3BCC) rfl (by decide)).mpr (.inl (by omega)))

end Sys2Proof.Machine
end

section
/-! The laws of the values of results (spec/45_properties.md R153 to R156, R159), each from the one fact that
the code of a result is the code that the operand's magnitude is rounded to. -/

namespace Sys2Proof.Machine

variable {src : Quad}

theorem srcClass_ne_nan_of_isFinite (h : FpClass.isFinite (srcClass src) = true) : srcClass src ≠ .nan := by
  intro hnan
  rw [hnan] at h
  exact Bool.false_ne_true h

/-! ## Monotonicity -/

/-- Settles O46: the magnitude increases with the operand's code, and rounding is monotone. -/
theorem narrowingIsMonotone : Obligations.NarrowingIsMonotone := by
  unfold Obligations.NarrowingIsMonotone
  intro a b ha hb _ hcode
  refine (roundsTo_dstCode_narrow ha).mono (roundsTo_dstCode_narrow hb) ?_
  rw [srcMagnitude_eq_formatValue, srcMagnitude_eq_formatValue]
  exact (formatValue_strictMono _).monotone hcode

/-! ## Overflow -/

/-- The midpoint of the largest finite destination value and the value after it. -/
theorem midpoint_maxFiniteCode :
    codeValue maxFiniteCode + codeValue (maxFiniteCode + 1) = 2 * ((2 : ℚ) ^ 1024 - 2 ^ 970) := by
  have hcode : maxFiniteCode = 2045 * 2 ^ 52 + (2 ^ 53 - 1) := by decide
  have hmax : codeValue maxFiniteCode = (2 ^ 53 - 1 : Nat) * 2 ^ 971 := by
    rw [hcode, codeValue_run (.inr (by decide)) (by decide)]
    rfl
  have hnext : codeValue (maxFiniteCode + 1) = 2 ^ 1024 := codeValue_infinity
  rw [hmax, hnext, show 971 = 970 + 1 from rfl, show 1024 = 970 + 54 from rfl, pow_add, pow_add]
  generalize (2 : ℚ) ^ 970 = x
  push_cast
  ring

/-- The largest finite code is odd, so the midpoint itself is rounded to infinity. -/
theorem pastMidpoint_maxFiniteCode_iff {v : ℚ} :
    PastMidpoint v maxFiniteCode ↔ (2 : ℚ) ^ 1024 - 2 ^ 970 ≤ v := by
  rw [PastMidpoint, midpoint_maxFiniteCode, and_iff_left (by decide), ← le_iff_lt_or_eq,
    mul_le_mul_iff_right₀ two_pos]

theorem dstCode_narrow_eq_infinity_iff (hnan : srcClass src ≠ .nan) :
    dstCode (narrow src) = maxFiniteCode + 1 ↔ (2 : ℚ) ^ 1024 - 2 ^ 970 ≤ srcMagnitude src := by
  obtain ⟨hle, hlt⟩ := roundsTo_dstCode_narrow hnan
  rw [← pastMidpoint_maxFiniteCode_iff, ← hlt _ le_rfl]
  omega

/-- The bound is the value of a source word, so it is a bound on the source's code. -/
theorem overflow_le_srcMagnitude_iff (src : Quad) :
    (2 : ℚ) ^ 1024 - 2 ^ 970 ≤ srcMagnitude src ↔
      0x43FF ≤ (srcExponent src).toNat ∨
        ((srcExponent src).toNat = 0x43FE ∧ (srcMantissa src).toNat / 2 ^ 59 = 2 ^ 53 - 1) := by
  have hm := (srcMantissa src).isLt
  have hbound : formatValue Config.srcFormat (0x43FD * 2 ^ 112 + (2 ^ 113 - 2 ^ 59))
      = (2 : ℚ) ^ 1024 - 2 ^ 970 := by
    have hunit : (2 : ℚ) ^ (((0x43FD : Nat) : Int) - 16494) = 2 ^ 911 := rfl
    rw [srcFormatValue_run (.inr (by decide)) (by decide), hunit, show 1024 = 911 + 113 from rfl,
      show 970 = 911 + 59 from rfl, pow_add, pow_add]
    generalize (2 : ℚ) ^ 911 = x
    push_cast
    ring
  rw [← hbound, ← not_lt, srcMagnitude_lt_iff, srcCode_eq_fields]
  omega

/-- Settles O44: the result is infinity when the magnitude is past the last midpoint, which is the value of a
source word. -/
theorem overflowBoundary : Obligations.OverflowBoundary := by
  unfold Obligations.OverflowBoundary
  intro src hfinite
  have hvalue := narrow_eq_infinity_iff.trans
    (dstCode_narrow_eq_infinity_iff (srcClass_ne_nan_of_isFinite hfinite))
  exact ⟨hvalue.trans (overflow_le_srcMagnitude_iff src), hvalue⟩

/-! ## Correct rounding -/

/-- Settles O43: below the last midpoint the rounded code is finite, and it is the nearest. -/
theorem narrowIsCorrectlyRounded : Obligations.NarrowIsCorrectlyRounded := by
  unfold Obligations.NarrowIsCorrectlyRounded
  refine ⟨fun m n hmn _ => codeValue_strictMono hmn, fun src hfinite => ?_, by decide, by decide⟩
  have hnan := srcClass_ne_nan_of_isFinite hfinite
  have hinf := dstCode_narrow_eq_infinity_iff hnan
  have hround := roundsTo_dstCode_narrow hnan
  refine ⟨fun hv => narrow_eq_infinity_iff.mpr (hinf.mpr hv), fun hv => hround.nearestEven ?_⟩
  have hne := mt hinf.mp hv.not_ge
  have hle := hround.le_infinity
  omega

/-! ## Underflow -/

/-- The least normal value. -/
theorem codeValue_smallest_normal : codeValue (2 ^ 52) = (2 : ℚ) ^ (-1022 : Int) := by
  have hrun := codeValue_run (j := 0) (s := 2 ^ 52) (.inl rfl) (by decide)
  rw [Nat.cast_pow, Nat.cast_ofNat, ← zpow_natCast, ← zpow_add₀ two_ne_zero] at hrun
  exact hrun

theorem dstClass_subnormal_of_code {d : Double} (hlo : 1 ≤ dstCode d) (hhi : dstCode d < 2 ^ 52) :
    dstClass d = .subnormal := by
  rw [dstCode_eq] at hlo hhi
  have he : (dstExponent d).toNat = 0 := by
    rw [dstExponent_toNat]
    omega
  have hm : dstMantissa d ≠ 0 := by
    rw [Ne, dstMantissa_eq_zero_iff]
    omega
  rw [dstClass, if_pos he, if_neg hm]

/-- A finite operand that is no zero is on the Finite path. -/
theorem srcClass_normal_or_subnormal (h : FpClass.isFinite (srcClass src) = true)
    (h0 : srcClass src ≠ .zero) :
    srcClass src = .normal ∨ srcClass src = .subnormal := by
  cases hc : srcClass src with
  | normal => exact .inl rfl
  | subnormal => exact .inr rfl
  | zero => exact absurd hc h0
  | infinity | nan =>
    rw [hc] at h
    exact absurd h Bool.false_ne_true

/-- The unbiased exponent on the Finite path is that of the exponent code, or of code 1 for code 0 (R101). -/
theorem trueExponent_srcClass (h : srcClass src = .normal ∨ srcClass src = .subnormal) :
    trueExponent (srcClass src) (srcExponent src)
      = (if (srcExponent src).toNat = 0 then 1 else ((srcExponent src).toNat : Int)) - 16383 := by
  rcases srcClass_finite_cases h with ⟨he, -, hc⟩ | ⟨he, -, hc⟩
  · rw [hc, if_neg he, trueExponent_normal]
  · rw [hc, if_pos he, trueExponent_of_ne_normal (by decide)]
    rfl

/-- Settles O45: 2^-1075 is the midpoint of the codes 0 and 1, so the first two bands are rounded to these; the
third is the row of subnormal results. Each bound is a power of two, hence a bound on the exponent code. -/
theorem underflowBoundary : Obligations.UnderflowBoundary := by
  unfold Obligations.UnderflowBoundary
  intro src hfinite v e
  have hround := roundsTo_dstCode_narrow (srcClass_ne_nan_of_isFinite hfinite)
  have h1075 : v ≤ (2 : ℚ) ^ (-1075 : Int) ↔ _ :=
    srcMagnitude_le_two_zpow_iff (c := 0x3BCC) rfl (by decide)
  have h1074 : v < (2 : ℚ) ^ (-1074 : Int) ↔ _ :=
    srcMagnitude_lt_two_zpow_iff (c := 0x3BCD) rfl (by decide)
  have h1022 : v < (2 : ℚ) ^ (-1022 : Int) ↔ _ :=
    srcMagnitude_lt_two_zpow_iff (c := 0x3C01) rfl (by decide)
  refine ⟨fun hv => ?_, fun hlo hhi => ?_, fun hlo hhi => ⟨?_, ?_⟩, fun hzero => ?_⟩
  · exact narrow_eq_dstWord_iff.mpr (hround.unique (roundsTo_zero (srcMagnitude_nonneg src) hv))
  · exact narrow_eq_dstWord_iff.mpr (hround.unique (roundsTo_one hlo hhi))
  · have hone : 1 ≤ dstCode (narrow src) :=
      (roundsTo_codeValue (by decide)).mono hround (codeValue_one.trans_le hlo)
    have htop : dstCode (narrow src) ≤ 2 ^ 52 :=
      hround.mono (roundsTo_codeValue (by decide)) (hhi.le.trans_eq codeValue_smallest_normal.symm)
    rcases htop.lt_or_eq with hlt | heq
    · exact .inl (dstClass_subnormal_of_code hone hlt)
    · exact .inr (narrow_eq_dstWord_iff.mpr heq)
  · rw [← not_lt, h1074] at hlo
    rw [h1022] at hhi
    exact dstCode_narrow_subnormal (by omega) (by omega)
  · have hexp : e = _ := trueExponent_srcClass (srcClass_normal_or_subnormal hfinite hzero)
    have hgt := not_le.symm.trans (not_congr h1075)
    have hge := not_lt.symm.trans (not_congr h1074)
    rw [h1075, hgt, h1074, hge, h1022, hexp, ne_eq, srcMantissa_eq_zero_iff]
    split <;> omega

/-! ## Exactness -/

theorem signed_inj {s : Bit} {v w : ℚ} : signed s v = signed s w ↔ v = w := by
  rw [signed, signed]
  split
  · exact neg_inj
  · rfl

/-- Under equal signs, equal values are equal magnitudes. -/
theorem dstValue_eq_srcValue_iff {d : Double} (hsign : dstSignOf d = srcSign src) :
    dstValue d = srcValue src ↔ codeValue (dstCode d) = srcMagnitude src := by
  rw [dstValue, srcValue, hsign, signed_inj, dstMagnitude_eq_codeValue]

/-- Having a destination word of the same value and sign is a fact about the magnitude. -/
theorem exists_dstWord_iff (src : Quad) :
    (∃ d : Double, FpClass.isFinite (dstClass d) = true ∧ dstValue d = srcValue src ∧
      d.getLsbD 63 = src.getLsbD 127) ↔ ∃ n ≤ maxFiniteCode, codeValue n = srcMagnitude src := by
  constructor
  · rintro ⟨d, hfinite, hvalue, hsign⟩
    exact ⟨dstCode d, dstClass_isFinite_iff.mp hfinite,
      (dstValue_eq_srcValue_iff (dstSignOf_eq_srcSign_iff.mpr hsign)).mp hvalue⟩
  · rintro ⟨n, hn, hvalue⟩
    have hlt : n < 2 ^ 63 := hn.trans_lt (by decide)
    have hcode := dstCode_signCode (srcSign src) n hlt
    have hsign := dstSignOf_signCode (srcSign src) hlt
    refine ⟨_, dstClass_isFinite_iff.mpr (hcode.trans_le hn), (dstValue_eq_srcValue_iff hsign).mpr ?_,
      dstSignOf_eq_srcSign_iff.mp hsign⟩
    rw [hcode, hvalue]

/-- The Normals whose magnitude is a destination value, by row: the row's shift discards nothing. -/
theorem exists_codeValue_normal_iff (h : srcClass src = .normal) :
    (∃ n ≤ maxFiniteCode, codeValue n = srcMagnitude src) ↔
      (0x3C01 ≤ (srcExponent src).toNat ∧ (srcExponent src).toNat ≤ 0x43FE ∧
        (srcMantissa src).toNat % 2 ^ 60 = 0) ∨
      (0x3BCD ≤ (srcExponent src).toNat ∧ (srcExponent src).toNat ≤ 0x3C00 ∧
        (2 ^ 112 + (srcMantissa src).toNat) % 2 ^ (60 + (15361 - (srcExponent src).toNat)) = 0) := by
  have hm := (srcMantissa src).isLt
  obtain ⟨he, -, -⟩ | ⟨-, -, hsub⟩ := srcClass_finite_cases (.inl h)
  · by_cases hov : 0x43FF ≤ (srcExponent src).toNat
    · refine iff_of_false ?_ (by omega)
      rintro ⟨n, hn, hvalue⟩
      have hlt := codeValue_strictMono (Nat.lt_succ_of_le hn)
      rw [hvalue, Nat.succ_eq_add_one, codeValue_infinity] at hlt
      exact absurd ((srcMagnitude_lt_two_zpow_iff (c := 0x43FF) rfl (by decide)).mp hlt) (by omega)
    by_cases hnormal : 0x3C01 ≤ (srcExponent src).toNat
    · rw [(inRun_normal hnormal (by omega)).exists_codeValue_eq_iff]
      omega
    · rw [(inRun_subnormal (by omega) (by omega)).exists_codeValue_eq_iff]
      by_cases hband : 0x3BCD ≤ (srcExponent src).toNat
      · omega
      · have hpow : 2 ^ 113 ≤ 2 ^ (60 + (15361 - (srcExponent src).toNat)) :=
          Nat.pow_le_pow_right (by decide) (by omega)
        rw [Nat.mod_eq_of_lt (by omega)]
        omega
  · exact absurd (hsub.symm.trans h) (by decide)

/-- Settles O42: a destination value is rounded to itself, and on each row a Normal's magnitude is one when the
row's shift discards nothing. -/
theorem representableValuesAreExact : Obligations.RepresentableValuesAreExact := by
  unfold Obligations.RepresentableValuesAreExact
  refine ⟨fun src d hsrc hdst hvalue hbit => ?_, fun src hnormal => ?_⟩
  · have hsign := dstSignOf_eq_srcSign_iff.mpr hbit
    have hround := roundsTo_dstCode_narrow (srcClass_ne_nan_of_isFinite hsrc)
    rw [← (dstValue_eq_srcValue_iff hsign).mp hvalue] at hround
    exact (narrow_eq_iff hsign).mpr (hround.unique (roundsTo_codeValue (dstClass_isFinite_iff.mp hdst)))
  · rw [exists_dstWord_iff, exists_codeValue_normal_iff hnormal, trueExponent_normal, extraShift_normal,
      significand_normal_toNat, totalShift, Config.truncShift_eq]
    dsimp only
    omega

end Sys2Proof.Machine
end

section
/-! A sequence of evaluations on one block (spec/30_encoding.md R65, spec/70_reset_and_hazards.md R194). -/

namespace Sys2Proof.Machine

/-- Settles O56: the run is a fold of presentations, of which the last one alone shows on the ports. -/
theorem sequenceGivesEachOperandItsResult : Obligations.SequenceGivesEachOperandItsResult := by
  unfold Obligations.SequenceGivesEachOperandItsResult
  intro xs s
  refine ⟨_, runEvaluations_eq xs s, ?_⟩
  rw [foldl_present_eq]
  cases xs.getLast? with
  | none => rfl
  | some x => rfl

end Sys2Proof.Machine
end
